-- ==== Sys2Proof/Word.lean ====
section
/-! DEFINITION. The words of the CHIP-8 engine: bytes, 16-bit words, register numbers, and byte arrays of a fixed length. -/

namespace Sys2Proof

/-- An 8-bit value: a V register, a timer, a byte of memory or of the plane (10_state.md R20). -/
abbrev Byte := BitVec 8

/-- A 16-bit value: `I`, `PC`, `PLEN`, a stack entry (10_state.md R20). -/
abbrev Word := BitVec 16

/-- A 16-bit opcode (30_encoding.md R80). -/
abbrev Opcode := BitVec 16

/-- A register number, 0x0 to 0xF (10_state.md R22; 30_encoding.md R83). -/
abbrev Reg := Fin 16

/-- A byte array of a fixed length. It carries its length's proof, so no state holds an array of another length; it is
held as a list so that the kernel compares two of them quickly. -/
structure Bytes (n : Nat) where
  toList : List Byte
  length_eq : toList.length = n
deriving DecidableEq, Repr

end Sys2Proof
end

