-- ==== Sys2Proof/Syntax.lean ====
section
/-! DEFINITION. The instructions: one constructor per row of spec/opcode_table.json (30_encoding.md R95, R97). `x` and `y` are
register numbers, `nn` and `nnn` the immediates of 30_encoding.md R84, `n` the row count of 00CN and DXYN. -/

namespace Sys2Proof

inductive Instr where
  /-- 00E0: clear the display (42_display.md R165). -/
  | cls
  /-- 00EE: return from subroutine (41_control.md R131). -/
  | ret
  /-- 00CN: scroll down N rows (42_display.md R166). -/
  | scd (n : Fin 16)
  /-- 00FA: toggle index auto-increment (44_index_memory.md R237). -/
  | togi
  /-- 00FB: scroll right by 4 pixels (42_display.md R167). -/
  | scr
  /-- 00FC: scroll left by 4 pixels (42_display.md R168). -/
  | scl
  /-- 00FD: exit request (41_control.md R140). -/
  | exitReq
  /-- 00FE: leave extended mode (42_display.md R169). -/
  | low
  /-- 00FF: enter extended mode (42_display.md R170). -/
  | high
  /-- 0NNN: machine-code subroutine call, a no-op (41_control.md R132). -/
  | sys (nnn : BitVec 12)
  /-- 1NNN: jump (41_control.md R133). -/
  | jp (nnn : BitVec 12)
  /-- 2NNN: call subroutine (41_control.md R134). -/
  | call (nnn : BitVec 12)
  /-- 3XNN: skip if VX equals the immediate (41_control.md R135). -/
  | seImm (x : Reg) (nn : Byte)
  /-- 4XNN: skip if VX differs from the immediate (41_control.md R136). -/
  | sneImm (x : Reg) (nn : Byte)
  /-- 5XY0: skip if VX equals VY (41_control.md R137). -/
  | seReg (x y : Reg)
  /-- 6XNN: load immediate (43_alu.md R201). -/
  | ldImm (x : Reg) (nn : Byte)
  /-- 7XNN: add immediate, no flag (43_alu.md R202). -/
  | addImm (x : Reg) (nn : Byte)
  /-- 8XY0: copy (43_alu.md R203). -/
  | ldReg (x y : Reg)
  /-- 8XY1: bitwise OR (43_alu.md R204). -/
  | orReg (x y : Reg)
  /-- 8XY2: bitwise AND (43_alu.md R205). -/
  | andReg (x y : Reg)
  /-- 8XY3: bitwise XOR (43_alu.md R206). -/
  | xorReg (x y : Reg)
  /-- 8XY4: add with carry into VF (43_alu.md R207). -/
  | addReg (x y : Reg)
  /-- 8XY5: subtract VY from VX, not-borrow into VF (43_alu.md R208). -/
  | subReg (x y : Reg)
  /-- 8XY6: shift right by 1 (43_alu.md R209). -/
  | shr (x y : Reg)
  /-- 8XY7: reverse subtract, VY - VX, not-borrow into VF (43_alu.md R210). -/
  | subnReg (x y : Reg)
  /-- 8XYE: shift left by 1 (43_alu.md R211). -/
  | shl (x y : Reg)
  /-- 9XY0: skip if VX differs from VY (41_control.md R138). -/
  | sneReg (x y : Reg)
  /-- ANNN: load index (44_index_memory.md R230). -/
  | ldI (nnn : BitVec 12)
  /-- BNNN: jump with V0 offset (41_control.md R139). -/
  | jpV0 (nnn : BitVec 12)
  /-- CXNN: random byte AND immediate (43_alu.md R212). -/
  | rnd (x : Reg) (nn : Byte)
  /-- DXYN, N = 1..15: draw an 8-pixel-wide sprite of N rows (42_display.md R171). -/
  | drw (x y : Reg) (n : Fin 16)
  /-- DXY0: draw the 16 x 16 extended sprite (42_display.md R172). -/
  | drwExt (x y : Reg)
  /-- EX9E: skip if key VX is pressed (45_timers_keys.md R261). -/
  | skp (x : Reg)
  /-- EXA1: skip if key VX is not pressed (45_timers_keys.md R262). -/
  | sknp (x : Reg)
  /-- FX07: read the delay timer (45_timers_keys.md R264). -/
  | ldVxDt (x : Reg)
  /-- FX0A: wait for any key (45_timers_keys.md R263). -/
  | ldVxK (x : Reg)
  /-- FX15: set the delay timer (45_timers_keys.md R265). -/
  | ldDtVx (x : Reg)
  /-- FX18: set the sound timer (45_timers_keys.md R266). -/
  | ldStVx (x : Reg)
  /-- FX1E: add register to index (44_index_memory.md R231). -/
  | addI (x : Reg)
  /-- FX29: point to a low-resolution glyph (44_index_memory.md R232). -/
  | ldF (x : Reg)
  /-- FX30: point to a high-resolution glyph (44_index_memory.md R233). -/
  | ldHF (x : Reg)
  /-- FX33: store the decimal digits of VX (44_index_memory.md R234). -/
  | ldB (x : Reg)
  /-- FX55: store V0..VX to memory (44_index_memory.md R235). -/
  | storeRegs (x : Reg)
  /-- FX65: load V0..VX from memory (44_index_memory.md R236). -/
  | loadRegs (x : Reg)
deriving DecidableEq, Repr

end Sys2Proof
end

