-- ==== Sys2Proof/WellFormed.lean ====
section
/-! DEFINITION. Which terms of `Instr` are instructions. The operand types already bound every field, so a term is ill formed
only where its word belongs to a more specific row of the table (30_encoding.md R86, R88). -/

namespace Sys2Proof

/-- The 12-bit operands that group 0 gives to 00E0, 00EE, 00CN and 00FA to 00FF, and so not to 0NNN (30_encoding.md R88). -/
abbrev takenFromSys (nnn : BitVec 12) : Prop :=
  nnn = 0x0E0 ∨ nnn = 0x0EE ∨ nnn.toNat / 16 = 0x0C ∨ (0x0FA ≤ nnn.toNat ∧ nnn.toNat ≤ 0x0FF)

/-- `sys nnn` stands for a word of row 0NNN, and `drw x y n` for one of row DXYN with N = 1..15 (30_encoding.md R86, R88);
every other term is an instruction whatever its operands. -/
def Instr.wellFormed : Instr → Bool
  | .sys nnn => !decide (takenFromSys nnn)
  | .drw _ _ n => decide (n ≠ 0)
  | .cls | .ret | .scd _ | .togi | .scr | .scl | .exitReq | .low | .high | .jp _ | .call _ | .seImm _ _ | .sneImm _ _
  | .seReg _ _ | .ldImm _ _ | .addImm _ _ | .ldReg _ _ | .orReg _ _ | .andReg _ _ | .xorReg _ _ | .addReg _ _
  | .subReg _ _ | .shr _ _ | .subnReg _ _ | .shl _ _ | .sneReg _ _ | .ldI _ | .jpV0 _ | .rnd _ _ | .drwExt _ _ | .skp _
  | .sknp _ | .ldVxDt _ | .ldVxK _ | .ldDtVx _ | .ldStVx _ | .addI _ | .ldF _ | .ldHF _ | .ldB _ | .storeRegs _
  | .loadRegs _ => true

end Sys2Proof
end

