-- ==== Sys2Proof/Decode.lean ====
section
/-! DEFINITION. Decoding: the fields of an opcode, the decoder by major opcode, the opcode table as masks and matches, and the
encoder (30_encoding.md). -/

namespace Sys2Proof

/-! ## Fields (30_encoding.md R81: every field is computed from every opcode) -/

/-- `o`, nibble 0: bits [15:12]. -/
def Opcode.o (op : Opcode) : Nat := op.toNat / 4096
/-- `x`, nibble 1: bits [11:8]. -/
def Opcode.x (op : Opcode) : Reg := ⟨op.toNat / 256 % 16, Nat.mod_lt _ (by decide)⟩
/-- `y`, nibble 2: bits [7:4]. -/
def Opcode.y (op : Opcode) : Reg := ⟨op.toNat / 16 % 16, Nat.mod_lt _ (by decide)⟩
/-- `n`, nibble 3: bits [3:0]. -/
def Opcode.n (op : Opcode) : Fin 16 := ⟨op.toNat % 16, Nat.mod_lt _ (by decide)⟩
/-- `nn`: bits [7:0]. -/
def Opcode.nn (op : Opcode) : Byte := BitVec.ofNat 8 (op.toNat % 256)
/-- `nnn`: bits [11:0]. -/
def Opcode.nnn (op : Opcode) : BitVec 12 := BitVec.ofNat 12 (op.toNat % 4096)

/-! ## Decode (30_encoding.md R86 to R92; `none` is an unknown opcode) -/

/-- Group 0 (R88): every opcode decodes; 0NNN takes what no other row matches. -/
def decodeGroup0 (op : Opcode) : Instr :=
  match op.toNat with
  | 0x00E0 => .cls
  | 0x00EE => .ret
  | 0x00FA => .togi
  | 0x00FB => .scr
  | 0x00FC => .scl
  | 0x00FD => .exitReq
  | 0x00FE => .low
  | 0x00FF => .high
  | w => if w / 16 = 0x00C then .scd (Opcode.n op) else .sys (Opcode.nnn op)

/-- Group 8 (R89), selected by `n`. -/
def decodeGroup8 (op : Opcode) : Option Instr :=
  match (Opcode.n op).val with
  | 0x0 => some (.ldReg (Opcode.x op) (Opcode.y op))
  | 0x1 => some (.orReg (Opcode.x op) (Opcode.y op))
  | 0x2 => some (.andReg (Opcode.x op) (Opcode.y op))
  | 0x3 => some (.xorReg (Opcode.x op) (Opcode.y op))
  | 0x4 => some (.addReg (Opcode.x op) (Opcode.y op))
  | 0x5 => some (.subReg (Opcode.x op) (Opcode.y op))
  | 0x6 => some (.shr (Opcode.x op) (Opcode.y op))
  | 0x7 => some (.subnReg (Opcode.x op) (Opcode.y op))
  | 0xE => some (.shl (Opcode.x op) (Opcode.y op))
  | _ => none

/-- Group E (R90), selected by `nn`. -/
def decodeGroupE (op : Opcode) : Option Instr :=
  match op.toNat % 256 with
  | 0x9E => some (.skp (Opcode.x op))
  | 0xA1 => some (.sknp (Opcode.x op))
  | _ => none

/-- Group F (R91), selected by `nn`. -/
def decodeGroupF (op : Opcode) : Option Instr :=
  match op.toNat % 256 with
  | 0x07 => some (.ldVxDt (Opcode.x op))
  | 0x0A => some (.ldVxK (Opcode.x op))
  | 0x15 => some (.ldDtVx (Opcode.x op))
  | 0x18 => some (.ldStVx (Opcode.x op))
  | 0x1E => some (.addI (Opcode.x op))
  | 0x29 => some (.ldF (Opcode.x op))
  | 0x30 => some (.ldHF (Opcode.x op))
  | 0x33 => some (.ldB (Opcode.x op))
  | 0x55 => some (.storeRegs (Opcode.x op))
  | 0x65 => some (.loadRegs (Opcode.x op))
  | _ => none

/-- `Decode(op)` (40_cycle.md R113) by the opcode map of 30_encoding.md R87: the instruction of the winning row, or `none`. -/
def decodeOpcode (op : Opcode) : Option Instr :=
  match Opcode.o op with
  | 0x0 => some (decodeGroup0 op)
  | 0x1 => some (.jp (Opcode.nnn op))
  | 0x2 => some (.call (Opcode.nnn op))
  | 0x3 => some (.seImm (Opcode.x op) (Opcode.nn op))
  | 0x4 => some (.sneImm (Opcode.x op) (Opcode.nn op))
  | 0x5 => if Opcode.n op = 0 then some (.seReg (Opcode.x op) (Opcode.y op)) else none
  | 0x6 => some (.ldImm (Opcode.x op) (Opcode.nn op))
  | 0x7 => some (.addImm (Opcode.x op) (Opcode.nn op))
  | 0x8 => decodeGroup8 op
  | 0x9 => if Opcode.n op = 0 then some (.sneReg (Opcode.x op) (Opcode.y op)) else none
  | 0xA => some (.ldI (Opcode.nnn op))
  | 0xB => some (.jpV0 (Opcode.nnn op))
  | 0xC => some (.rnd (Opcode.x op) (Opcode.nn op))
  | 0xD => if Opcode.n op = 0 then some (.drwExt (Opcode.x op) (Opcode.y op))
           else some (.drw (Opcode.x op) (Opcode.y op) (Opcode.n op))
  | 0xE => decodeGroupE op
  | 0xF => decodeGroupF op
  | _ => none

/-- The opcode two bytes of memory spell: the first is bits [15:8] (20_memory.md R59). -/
def opcodeOfBytes (hi lo : Byte) : Opcode := hi ++ lo

/-- Why bytes are no instruction. -/
inductive DecodeError where
  /-- Fewer than the two bytes every instruction has (30_encoding.md R80, R94). -/
  | truncated
  /-- The opcode matches no row (30_encoding.md R92). -/
  | unknownOpcode (op : Opcode)
deriving DecidableEq, Repr

/-- Decoding of any bytes: the instruction at their head and the bytes after it, or why there is none. -/
def decodeBytes : List Byte → Except DecodeError (Instr × List Byte)
  | hi :: lo :: rest =>
    match decodeOpcode (opcodeOfBytes hi lo) with
    | some i => .ok (i, rest)
    | none => .error (.unknownOpcode (opcodeOfBytes hi lo))
  | _ => .error .truncated

/-- The decoder at an instruction whose bits are `w`, numbered as spec/opcode_table.json numbers them: one 16-bit word, which
memory holds high byte first. -/
def decodeTableWord (nbits w : Nat) : Option Instr :=
  let op := BitVec.ofNat 16 (w % 2 ^ nbits)
  match decodeBytes [op.extractLsb' 8 8, op.extractLsb' 0 8] with
  | .ok (i, _) => some i
  | .error _ => none

/-! ## The opcode table (spec/opcode_table.json; 30_encoding.md R86) -/

/-- One row: the pattern that names it, and the bits it fixes. -/
structure OpRow where
  mnemonic : String
  mask : Opcode
  value : Opcode
deriving DecidableEq, Repr

/-- "An opcode matches a row of the opcode table when `op AND mask = match`" (R86). -/
def OpRow.matchesOp (r : OpRow) (op : Opcode) : Bool := op &&& r.mask == r.value

/-- How many 1-bits a row's mask has (R86: the row with more wins). -/
def OpRow.weight (r : OpRow) : Nat := (List.range 16).countP fun k => r.mask.getLsbD k

/-- Group 0. -/
def opRows0 : List OpRow :=
  [⟨"00E0", 0xFFFF, 0x00E0⟩, ⟨"00EE", 0xFFFF, 0x00EE⟩, ⟨"00CN", 0xFFF0, 0x00C0⟩, ⟨"00FA", 0xFFFF, 0x00FA⟩,
   ⟨"00FB", 0xFFFF, 0x00FB⟩, ⟨"00FC", 0xFFFF, 0x00FC⟩, ⟨"00FD", 0xFFFF, 0x00FD⟩, ⟨"00FE", 0xFFFF, 0x00FE⟩,
   ⟨"00FF", 0xFFFF, 0x00FF⟩, ⟨"0NNN", 0xF000, 0x0000⟩]

/-- Groups 1 to 7. -/
def opRows1to7 : List OpRow :=
  [⟨"1NNN", 0xF000, 0x1000⟩, ⟨"2NNN", 0xF000, 0x2000⟩, ⟨"3XNN", 0xF000, 0x3000⟩, ⟨"4XNN", 0xF000, 0x4000⟩,
   ⟨"5XY0", 0xF00F, 0x5000⟩, ⟨"6XNN", 0xF000, 0x6000⟩, ⟨"7XNN", 0xF000, 0x7000⟩]

/-- Groups 8 to D. -/
def opRows8toD : List OpRow :=
  [⟨"8XY0", 0xF00F, 0x8000⟩, ⟨"8XY1", 0xF00F, 0x8001⟩, ⟨"8XY2", 0xF00F, 0x8002⟩, ⟨"8XY3", 0xF00F, 0x8003⟩,
   ⟨"8XY4", 0xF00F, 0x8004⟩, ⟨"8XY5", 0xF00F, 0x8005⟩, ⟨"8XY6", 0xF00F, 0x8006⟩, ⟨"8XY7", 0xF00F, 0x8007⟩,
   ⟨"8XYE", 0xF00F, 0x800E⟩, ⟨"9XY0", 0xF00F, 0x9000⟩, ⟨"ANNN", 0xF000, 0xA000⟩, ⟨"BNNN", 0xF000, 0xB000⟩,
   ⟨"CXNN", 0xF000, 0xC000⟩, ⟨"DXYN", 0xF000, 0xD000⟩, ⟨"DXY0", 0xF00F, 0xD000⟩]

/-- Groups E and F. -/
def opRowsEF : List OpRow :=
  [⟨"EX9E", 0xF0FF, 0xE09E⟩, ⟨"EXA1", 0xF0FF, 0xE0A1⟩, ⟨"FX07", 0xF0FF, 0xF007⟩, ⟨"FX0A", 0xF0FF, 0xF00A⟩,
   ⟨"FX15", 0xF0FF, 0xF015⟩, ⟨"FX18", 0xF0FF, 0xF018⟩, ⟨"FX1E", 0xF0FF, 0xF01E⟩, ⟨"FX29", 0xF0FF, 0xF029⟩,
   ⟨"FX30", 0xF0FF, 0xF030⟩, ⟨"FX33", 0xF0FF, 0xF033⟩, ⟨"FX55", 0xF0FF, 0xF055⟩, ⟨"FX65", 0xF0FF, 0xF065⟩]

/-- The 44 rows (30_encoding.md R97). -/
def opcodeTable : List OpRow := opRows0 ++ opRows1to7 ++ opRows8toD ++ opRowsEF

/-- The row of an instruction. -/
def rowOf : Instr → OpRow
  | .cls => ⟨"00E0", 0xFFFF, 0x00E0⟩
  | .ret => ⟨"00EE", 0xFFFF, 0x00EE⟩
  | .scd _ => ⟨"00CN", 0xFFF0, 0x00C0⟩
  | .togi => ⟨"00FA", 0xFFFF, 0x00FA⟩
  | .scr => ⟨"00FB", 0xFFFF, 0x00FB⟩
  | .scl => ⟨"00FC", 0xFFFF, 0x00FC⟩
  | .exitReq => ⟨"00FD", 0xFFFF, 0x00FD⟩
  | .low => ⟨"00FE", 0xFFFF, 0x00FE⟩
  | .high => ⟨"00FF", 0xFFFF, 0x00FF⟩
  | .sys _ => ⟨"0NNN", 0xF000, 0x0000⟩
  | .jp _ => ⟨"1NNN", 0xF000, 0x1000⟩
  | .call _ => ⟨"2NNN", 0xF000, 0x2000⟩
  | .seImm _ _ => ⟨"3XNN", 0xF000, 0x3000⟩
  | .sneImm _ _ => ⟨"4XNN", 0xF000, 0x4000⟩
  | .seReg _ _ => ⟨"5XY0", 0xF00F, 0x5000⟩
  | .ldImm _ _ => ⟨"6XNN", 0xF000, 0x6000⟩
  | .addImm _ _ => ⟨"7XNN", 0xF000, 0x7000⟩
  | .ldReg _ _ => ⟨"8XY0", 0xF00F, 0x8000⟩
  | .orReg _ _ => ⟨"8XY1", 0xF00F, 0x8001⟩
  | .andReg _ _ => ⟨"8XY2", 0xF00F, 0x8002⟩
  | .xorReg _ _ => ⟨"8XY3", 0xF00F, 0x8003⟩
  | .addReg _ _ => ⟨"8XY4", 0xF00F, 0x8004⟩
  | .subReg _ _ => ⟨"8XY5", 0xF00F, 0x8005⟩
  | .shr _ _ => ⟨"8XY6", 0xF00F, 0x8006⟩
  | .subnReg _ _ => ⟨"8XY7", 0xF00F, 0x8007⟩
  | .shl _ _ => ⟨"8XYE", 0xF00F, 0x800E⟩
  | .sneReg _ _ => ⟨"9XY0", 0xF00F, 0x9000⟩
  | .ldI _ => ⟨"ANNN", 0xF000, 0xA000⟩
  | .jpV0 _ => ⟨"BNNN", 0xF000, 0xB000⟩
  | .rnd _ _ => ⟨"CXNN", 0xF000, 0xC000⟩
  | .drw _ _ _ => ⟨"DXYN", 0xF000, 0xD000⟩
  | .drwExt _ _ => ⟨"DXY0", 0xF00F, 0xD000⟩
  | .skp _ => ⟨"EX9E", 0xF0FF, 0xE09E⟩
  | .sknp _ => ⟨"EXA1", 0xF0FF, 0xE0A1⟩
  | .ldVxDt _ => ⟨"FX07", 0xF0FF, 0xF007⟩
  | .ldVxK _ => ⟨"FX0A", 0xF0FF, 0xF00A⟩
  | .ldDtVx _ => ⟨"FX15", 0xF0FF, 0xF015⟩
  | .ldStVx _ => ⟨"FX18", 0xF0FF, 0xF018⟩
  | .addI _ => ⟨"FX1E", 0xF0FF, 0xF01E⟩
  | .ldF _ => ⟨"FX29", 0xF0FF, 0xF029⟩
  | .ldHF _ => ⟨"FX30", 0xF0FF, 0xF030⟩
  | .ldB _ => ⟨"FX33", 0xF0FF, 0xF033⟩
  | .storeRegs _ => ⟨"FX55", 0xF0FF, 0xF055⟩
  | .loadRegs _ => ⟨"FX65", 0xF0FF, 0xF065⟩

/-! ## Encode (30_encoding.md R96: "fill the pattern's X, Y, N, NN and NNN with the operand values") -/

/-- The pattern oNNN. -/
def packNNN (o : Nat) (nnn : BitVec 12) : Nat := o * 4096 + nnn.toNat
/-- The pattern oXNN. -/
def packXNN (o : Nat) (x : Reg) (nn : Byte) : Nat := o * 4096 + x.val * 256 + nn.toNat
/-- The pattern oXYN. -/
def packXYN (o : Nat) (x y : Reg) (n : Nat) : Nat := o * 4096 + x.val * 256 + y.val * 16 + n
/-- The pattern oX.., with the low byte fixed. -/
def packX (o : Nat) (x : Reg) (low : Nat) : Nat := o * 4096 + x.val * 256 + low

/-- The number an instruction's opcode is. -/
def encodeNat : Instr → Nat
  | .cls => 0x00E0
  | .ret => 0x00EE
  | .scd n => 0x00C0 + n.val
  | .togi => 0x00FA
  | .scr => 0x00FB
  | .scl => 0x00FC
  | .exitReq => 0x00FD
  | .low => 0x00FE
  | .high => 0x00FF
  | .sys nnn => packNNN 0x0 nnn
  | .jp nnn => packNNN 0x1 nnn
  | .call nnn => packNNN 0x2 nnn
  | .seImm x nn => packXNN 0x3 x nn
  | .sneImm x nn => packXNN 0x4 x nn
  | .seReg x y => packXYN 0x5 x y 0x0
  | .ldImm x nn => packXNN 0x6 x nn
  | .addImm x nn => packXNN 0x7 x nn
  | .ldReg x y => packXYN 0x8 x y 0x0
  | .orReg x y => packXYN 0x8 x y 0x1
  | .andReg x y => packXYN 0x8 x y 0x2
  | .xorReg x y => packXYN 0x8 x y 0x3
  | .addReg x y => packXYN 0x8 x y 0x4
  | .subReg x y => packXYN 0x8 x y 0x5
  | .shr x y => packXYN 0x8 x y 0x6
  | .subnReg x y => packXYN 0x8 x y 0x7
  | .shl x y => packXYN 0x8 x y 0xE
  | .sneReg x y => packXYN 0x9 x y 0x0
  | .ldI nnn => packNNN 0xA nnn
  | .jpV0 nnn => packNNN 0xB nnn
  | .rnd x nn => packXNN 0xC x nn
  | .drw x y n => packXYN 0xD x y n.val
  | .drwExt x y => packXYN 0xD x y 0x0
  | .skp x => packX 0xE x 0x9E
  | .sknp x => packX 0xE x 0xA1
  | .ldVxDt x => packX 0xF x 0x07
  | .ldVxK x => packX 0xF x 0x0A
  | .ldDtVx x => packX 0xF x 0x15
  | .ldStVx x => packX 0xF x 0x18
  | .addI x => packX 0xF x 0x1E
  | .ldF x => packX 0xF x 0x29
  | .ldHF x => packX 0xF x 0x30
  | .ldB x => packX 0xF x 0x33
  | .storeRegs x => packX 0xF x 0x55
  | .loadRegs x => packX 0xF x 0x65

/-- The opcode of an instruction. -/
def encode (i : Instr) : Opcode := BitVec.ofNat 16 (encodeNat i)

/-- The two bytes of an instruction as memory holds them, high byte first (20_memory.md R59). -/
def encodeBytes (i : Instr) : List Byte := [(encode i).extractLsb' 8 8, (encode i).extractLsb' 0 8]

end Sys2Proof
end

