-- ==== Sys2Proof/Config.lean ====
section
/-! DEFINITION. The fixed constants of this hardware (00_scope.md R7) and the free values: values the spec leaves open, which
no proof can evaluate. The open parameters with a default (R8) stand in Machine/Params.lean. -/

namespace Sys2Proof

/-- MEM_SIZE: addresses 0..4095 (R7). -/
@[simp] abbrev Config.memSize : Nat := 4096
/-- PROGRAM_START (R7). -/
@[simp] abbrev Config.programStart : Nat := 0x200
/-- STACK_START (R7). -/
@[simp] abbrev Config.stackStart : Nat := 0xEA0
/-- STACK_CAPACITY (R7, derived in 10_state.md R27). -/
@[simp] abbrev Config.stackCapacity : Nat := 175
/-- DISP_BYTES: 128 x 64 bits (R7). -/
@[simp] abbrev Config.dispBytes : Nat := 1024
/-- The bytes GLYPH_IMAGE covers, 0x000..0x0EF (R8). -/
@[simp] abbrev Config.glyphBytes : Nat := 240
/-- LO_GLYPH_SIZE: bytes per low-resolution digit; LO_GLYPH_BASE is 0 (R7). -/
@[simp] abbrev Config.loGlyphSize : Nat := 5
/-- HI_GLYPH_BASE (R7). -/
@[simp] abbrev Config.hiGlyphBase : Nat := 0x50
/-- HI_GLYPH_SIZE: bytes per high-resolution digit (R7). -/
@[simp] abbrev Config.hiGlyphSize : Nat := 10
/-- EXT_SPRITE_BYTES: a 16 x 16 sprite (R7). -/
@[simp] abbrev Config.extSpriteBytes : Nat := 32
/-- NUM_KEYS (R7). -/
@[simp] abbrev Config.numKeys : Nat := 16
/-- TIMER_PERIOD_LO and TIMER_PERIOD_HI (R7), chosen by `EXT`. -/
abbrev Config.timerPeriod (ext : Bool) : Nat := if ext then 8 else 16
/-- LO_W and HI_W (R7), chosen by `EXT`. -/
abbrev Config.width (ext : Bool) : Nat := if ext then 128 else 64
/-- LO_H and HI_H (R7), chosen by `EXT`. -/
abbrev Config.height (ext : Bool) : Nat := if ext then 64 else 32

/-- FREE VALUE: byte `k` of GLYPH_IMAGE, which has no default: "none; the document gives no glyph bytes" (00_scope.md R8,
92_eei_decisions.md D3; log entry 5). Unsafe only if a statement used one value of it; nothing can. -/
opaque Config.glyphByte : Nat → Byte

/-- FREE VALUE: the key snapshot of a cycle for which the host has fixed no input (60_exceptions.md R300; log entry 3). -/
opaque Config.freeKeys : Nat → BitVec 16

/-- FREE VALUE: the random byte of a cycle for which the host has fixed no input; "a free draw: no law relates successive
values" (60_exceptions.md R301; log entry 3). -/
opaque Config.freeRand : Nat → Byte

end Sys2Proof
end

