-- ==== Sys2Proof/Machine/Bytes.lean ====
section
/-! DEFINITION. Reading, writing and building a byte array of a fixed length (the V registers, the plane, GLYPH_IMAGE). -/

namespace Sys2Proof

/-- Entry `k`; 0 past the end, which no caller reads. -/
def Bytes.get {n : Nat} (b : Bytes n) (k : Nat) : Byte := b.toList.getD k 0

/-- The array with entry `k` replaced; unchanged past the end, which no caller writes. -/
def Bytes.set {n : Nat} (b : Bytes n) (k : Nat) (v : Byte) : Bytes n := ⟨b.toList.set k v, by simp [b.length_eq]⟩

/-- The array whose entry `k` is `f k`. -/
def Bytes.build (n : Nat) (f : Nat → Byte) : Bytes n := ⟨(List.range n).map f, by simp⟩

/-- The array of zeros. -/
def Bytes.zeros (n : Nat) : Bytes n := ⟨List.replicate n 0, by simp⟩

end Sys2Proof
end

