-- ==== Sys2Proof/Machine/Params.lean ====
section
/-! DEFINITION. The open parameters of 00_scope.md R8, which "the model takes as an argument", and what memory holds after
reset. They stand in State as plain data (log entry 4), so a statement about every state covers every value of them. -/

namespace Sys2Proof.Machine

/-- STACK_ENDIAN: the byte order of a stack entry in memory (R8; 92_eei_decisions.md D4). -/
inductive StackEndian where
  | little
  | big
deriving DecidableEq, Repr

/-- VF_ORDER: which write wins when an ALU instruction with X = 0xF writes both VX and VF (R8; D15). -/
inductive VfOrder where
  | flagLast
  | resultLast
deriving DecidableEq, Repr

/-- SHIFT_SOURCE: the operand 8XY6 and 8XYE shift (R8; D16). -/
inductive ShiftSource where
  | vx
  | vy
deriving DecidableEq, Repr

/-- The five open parameters (R8). -/
structure Params where
  /-- GLYPH_IMAGE: the contents of memory[0x000..0x0EF] after Construct (D3). -/
  glyphImage : Bytes Config.glyphBytes
  stackEndian : StackEndian
  vfOrder : VfOrder
  shiftSource : ShiftSource
  /-- FX0A_WRITES_KEY: whether FX0A writes the pressed key number to VX (D23). -/
  fx0aWritesKey : Bool
deriving DecidableEq, Repr

/-- The defaults of R8. GLYPH_IMAGE has none, so it is the free value Config.glyphByte (log entries 4 and 5). -/
def Params.defaults : Params :=
  { glyphImage := Bytes.build Config.glyphBytes Config.glyphByte
    stackEndian := .little
    vfOrder := .flagLast
    shiftSource := .vx
    fx0aWritesKey := false }

/-- What memory holds at an address after reset, and so what an address the memory list does not name reads as: GLYPH_IMAGE
at 0x000..0x0EF, 0 elsewhere (10_state.md R37; log entry 7). -/
def resetByte (p : Params) (a : Nat) : Byte := if a < Config.glyphBytes then p.glyphImage.get a else 0

end Sys2Proof.Machine
end

