-- ==== Sys2Proof/Machine/State.lean ====
section
/-! DEFINITION. The state of the engine (10_state.md R20), the ports of an Advance, the reasons a step can stop, and reset. -/

namespace Sys2Proof.Machine

/-- Why a cycle halts (60_exceptions.md R281, R282). -/
inductive HaltReason where
  /-- `PC >= 0x200 + PLEN`; raised by the cycle. -/
  | endOfProgram
  /-- The opcode matches no row; raised by the cycle. -/
  | unknownOpcode
  /-- `I + n > 4096`; raised by DXYN, DXY0, FX33, FX55, FX65. -/
  | memoryOutOfBounds
  /-- `SP` = 175; raised by 2NNN. -/
  | stackOverflow
  /-- `SP` = 0; raised by 00EE. -/
  | stackUnderflow
  /-- `V[x] >= 16`; raised by EX9E, EXA1. -/
  | keyOutOfRange
deriving DecidableEq, Repr

/-- The status an Advance returns, with the reason of a HALT (40_cycle.md R118). -/
inductive Status where
  /-- CONTINUE. -/
  | cont
  /-- EXIT_REQUEST. -/
  | exitRequest
  /-- HALT with its reason. -/
  | halt (reason : HaltReason)
deriving DecidableEq, Repr

/-- The inputs of one Advance (40_cycle.md R110, R119). -/
structure CycleInput where
  /-- `key[0..15]`: bit k is key k, set when pressed (60_exceptions.md R300). -/
  keys : BitVec 16
  /-- `rand` (60_exceptions.md R301). -/
  rand : Byte
deriving DecidableEq, Repr

/-- Memory: the (address, byte) pairs that differ from the reset contents, addresses strictly rising (log entry 7). -/
abbrev Memory := List Host.Cell

/-- The whole machine. The first twelve fields are the spec's state (10_state.md R20); the last five are the model's own
(log entries 2 to 5): the ports of an Advance, the host's coming inputs, and the parameters. -/
structure State where
  /-- `M[0..4095]` (R34). -/
  mem : Memory
  /-- `V[0..15]` (R22). -/
  v : Bytes 16
  /-- `I` (R24). -/
  i : Word
  /-- `PC` (R25). -/
  pc : Word
  /-- `SP`: how many return addresses are on the call stack (R26). -/
  sp : Byte
  /-- `D[0..1023]`, the display plane (R35). -/
  plane : Bytes 1024
  /-- `DT`, the delay timer (R28). -/
  dt : Byte
  /-- `ST`, the sound timer (R29). -/
  st : Byte
  /-- `PH`, the timer phase counter (R30). -/
  ph : Nat
  /-- `INC`: whether FX55 and FX65 advance `I` (R31). -/
  inc : Bool
  /-- `EXT`: high resolution (R32). -/
  ext : Bool
  /-- `PLEN`: the length of the loaded program (R33). -/
  plen : Word
  /-- The output ports `status` and `halt_reason` of the last Advance (40_cycle.md R118). -/
  out : Status
  /-- The input ports of the Advance in progress (40_cycle.md R119). -/
  input : CycleInput
  /-- The inputs the host has fixed for the coming Advances, oldest first. -/
  pending : List CycleInput
  /-- How many free draws the inputs have taken. -/
  draws : Nat
  /-- The open parameters (00_scope.md R8); nothing changes them. -/
  params : Params
deriving DecidableEq, Repr

/-- Why the machine stops. No instruction stops from a state a run can reach; a Halt(reason) of the spec is no stop
(log entry 1). -/
inductive Fault where
  /-- Raised by the fetch when `PC + 1` lies outside memory, which needs PLEN > 3231 (20_memory.md R62; log entry 8). Safe:
  the spec gives no such fetch. -/
  | fetchOutsideMemory
  /-- Raised by 2NNN and 00EE when the stack entry lies outside memory, which needs SP > 175 (10_state.md R27; log entry 9).
  Safe: the spec gives no such access. -/
  | stackEntryOutsideMemory
deriving DecidableEq, Repr

/-- Why an instruction has no meaning. -/
inductive Refusal where
  /-- Raised by `exec` for an instruction without a meaning; no arm raises it. Safe. -/
  | notModelled (mnemonic : String)
deriving DecidableEq, Repr

/-- What a meaning answers. -/
abbrev Result := Host.Outcome State Fault Refusal

/-- The Construct column of 10_state.md R37 (70_reset_and_hazards.md R320), for given parameters; the ports idle. -/
def State.constructed (p : Params) : State :=
  { mem := []
    v := Bytes.zeros 16
    i := 0
    pc := 0
    sp := 0
    plane := Bytes.zeros 1024
    dt := 0
    st := 0
    ph := 0
    inc := false
    ext := false
    plen := 0
    out := .cont
    input := { keys := 0, rand := 0 }
    pending := []
    draws := 0
    params := p }

/-- The machine right after power-on reset, with the parameters of 00_scope.md R8. -/
def State.reset : State := State.constructed Params.defaults

end Sys2Proof.Machine
end

