-- ==== Sys2Proof/Machine/Ops.lean ====
section
/-! DEFINITION. The named operations over registers, memory and the call stack, and raising a halt, which the meanings share. -/

namespace Sys2Proof.Machine

/-! ## Memory (20_memory.md R50, R56). `base` is what an unlisted address reads as. -/

/-- The byte at an address. -/
def memRead (base : Nat → Byte) : Memory → Nat → Byte
  | [], a => base a
  | (b, v) :: m, a => if a = b then v else memRead base m a

/-- Memory with the byte at an address replaced, in canonical form: writing what the address reads as unlisted removes it. -/
def memWrite (base : Nat → Byte) : Memory → Nat → Byte → Memory
  | [], a, v => if v = base a then [] else [(a, v)]
  | (b, w) :: m, a, v =>
    if a < b then if v = base a then (b, w) :: m else (a, v) :: (b, w) :: m
    else if a = b then if v = base a then m else (a, v) :: m
    else (b, w) :: memWrite base m a v

/-- Consecutive bytes written in increasing address order (20_memory.md R57). -/
def memWriteList (base : Nat → Byte) : Memory → Nat → List Byte → Memory
  | m, _, [] => m
  | m, a, v :: vs => memWriteList base (memWrite base m a v) (a + 1) vs

/-- The canonical form: addresses strictly rising and inside memory, no entry equal to what its address reads as unlisted. -/
abbrev Memory.wf (base : Nat → Byte) (m : Memory) : Prop :=
  m.Pairwise (fun c d => c.1 < d.1) ∧ ∀ c ∈ m, c.1 < Config.memSize ∧ c.2 ≠ base c.1

/-- `MemRead(a, 1)` (20_memory.md R56). -/
def State.readByte (s : State) (a : Nat) : Byte := memRead (resetByte s.params) s.mem a

/-- `MemWrite(a, 1, v)` (20_memory.md R56). -/
def State.writeByte (s : State) (a : Nat) (v : Byte) : State :=
  { s with mem := memWrite (resetByte s.params) s.mem a v }

/-- `MemWrite` of consecutive bytes from `a` on. -/
def State.writeBytes (s : State) (a : Nat) (vs : List Byte) : State :=
  { s with mem := memWriteList (resetByte s.params) s.mem a vs }

/-! ## Registers (10_state.md R22 to R25) -/

/-- `V[x]`. -/
def State.getV (s : State) (x : Reg) : Byte := s.v.get x.val

/-- `V[x] <- b`. -/
def State.setV (s : State) (x : Reg) (b : Byte) : State := { s with v := s.v.set x.val b }

/-- `I <- (n mod 65536)`. -/
def State.setI (s : State) (n : Nat) : State := { s with i := BitVec.ofNat 16 n }

/-- `PC <- (n mod 65536)`. -/
def State.setPc (s : State) (n : Nat) : State := { s with pc := BitVec.ofNat 16 n }

/-- `PC <- (PC + n) mod 65536` (40_cycle.md R116). -/
def State.advance (s : State) (n : Nat) : State := s.setPc (s.pc.toNat + n)

/-- A skip: `A + 4` when the condition holds, `A + 2` when not (41_control.md R130). -/
def State.skipIf (s : State) (c : Bool) : State := s.advance (if c then 4 else 2)

/-! ## Halts (60_exceptions.md R280) -/

/-- `raise Halt(reason)`: the cycle ends with status HALT and the reason, and the state as the timer tick left it
(40_cycle.md R120). Nothing is saved, no mode changes and there is no handler, so nothing returns from it (R285). -/
def State.raiseHalt (s : State) (r : HaltReason) : State := { s with out := .halt r }

/-- The check of an instruction that reaches `n` bytes through `I` (20_memory.md R60): unbounded arithmetic, before any
write; past memory the cycle halts, else the instruction has its effect. -/
def guardRange (s : State) (n : Nat) (effect : State) : State :=
  if s.i.toNat + n > Config.memSize then s.raiseHalt .memoryOutOfBounds else effect

/-! ## The call stack (10_state.md R26; 20_memory.md R58) -/

/-- The address of stack entry `k`. -/
def stackAddr (k : Nat) : Nat := Config.stackStart + 2 * k

/-- Whether entry `k` lies inside memory (10_state.md R27). -/
abbrev stackEntryInMemory (k : Nat) : Prop := k ≤ Config.stackCapacity

/-- The two bytes of a 16-bit entry, at the lower address first (20_memory.md R58). -/
def entryBytes (e : StackEndian) (w : Word) : List Byte :=
  match e with
  | .little => [w.extractLsb' 0 8, w.extractLsb' 8 8]
  | .big => [w.extractLsb' 8 8, w.extractLsb' 0 8]

/-- The entry two bytes spell, the one at the lower address first (20_memory.md R58). -/
def entryOfBytes (e : StackEndian) (b0 b1 : Byte) : Word :=
  match e with
  | .little => b1 ++ b0
  | .big => b0 ++ b1

/-- `StackRead(k)`. -/
def State.stackRead (s : State) (k : Nat) : Word :=
  entryOfBytes s.params.stackEndian (s.readByte (stackAddr k)) (s.readByte (stackAddr k + 1))

/-- `StackWrite(k, w)`. -/
def State.stackWrite (s : State) (k : Nat) (w : Word) : State :=
  s.writeBytes (stackAddr k) (entryBytes s.params.stackEndian w)

end Sys2Proof.Machine
end

