-- ==== Sys2Proof/Machine/Operands.lean ====
section
/-! DEFINITION. Operand forms: immediates, the shift operand, the register range of FX55 and FX65, decimal digits, and the key
snapshot (30_encoding.md R83, R84; 45_timers_keys.md R260). -/

namespace Sys2Proof.Machine

/-- The operand 8XY6 and 8XYE shift, by SHIFT_SOURCE (43_alu.md R209, R211). -/
def State.shiftOperand (s : State) (x y : Reg) : Byte :=
  match s.params.shiftSource with
  | .vx => s.getV x
  | .vy => s.getV y

/-- `V0..VX` in order, the bytes FX55 stores (44_index_memory.md R235). -/
def State.regRange (s : State) (x : Reg) : List Byte := (List.range (x.val + 1)).map s.v.get

/-- The registers after FX65: `V[k] <- MemRead(I + k, 1)` for k in 0..x, the rest unchanged (44_index_memory.md R236). -/
def State.loadedRegs (s : State) (x : Reg) : Bytes 16 :=
  Bytes.build 16 fun k => if k ≤ x.val then s.readByte (s.i.toNat + k) else s.v.get k

/-- The index after FX55 and FX65: `I + X + 1` when `INC` = 1 (44_index_memory.md R235, R236). -/
def State.indexAfter (s : State) (x : Reg) : Word :=
  if s.inc then BitVec.ofNat 16 (s.i.toNat + x.val + 1) else s.i

/-- The hundreds, tens and ones of a byte (44_index_memory.md R234). -/
def decimalDigits (b : Byte) : List Byte :=
  [BitVec.ofNat 8 (b.toNat / 100), BitVec.ofNat 8 (b.toNat / 10 % 10), BitVec.ofNat 8 (b.toNat % 10)]

/-- `key[k]` of this cycle's snapshot. -/
def State.keyDown (s : State) (k : Nat) : Bool := s.input.keys.getLsbD k

/-- The smallest pressed key, or none (45_timers_keys.md R263). -/
def State.lowestKey (s : State) : Option Nat := (List.range Config.numKeys).find? s.keyDown

/-- A skip on a key (45_timers_keys.md R260 to R262): a value of 16 or more names no key and halts the cycle. -/
def State.skipOnKey (s : State) (value : Byte) (whenDown : Bool) : State :=
  if value.toNat ≥ Config.numKeys then s.raiseHalt .keyOutOfRange
  else s.skipIf (s.keyDown value.toNat == whenDown)

end Sys2Proof.Machine
end

