-- ==== Sys2Proof/Machine/Flags.lean ====
section
/-! DEFINITION. The results and flags of 8XY4 to 8XYE in exact arithmetic (00_scope.md R10), and the two writes of
43_alu.md R200. A pair is the 8-bit result and the flag. -/

namespace Sys2Proof.Machine

/-- A flag as VF holds it. -/
def flagByte (f : Bool) : Byte := if f then 1 else 0

/-- The sum modulo 256, and the carry out of bit 7 (43_alu.md R207). -/
def addFlag (a b : Byte) : Byte × Bool :=
  (BitVec.ofNat 8 ((a.toNat + b.toNat) % 256), decide (a.toNat + b.toNat > 255))

/-- The difference modulo 256, and not-borrow (43_alu.md R208, R210). -/
def subFlag (a b : Byte) : Byte × Bool :=
  (BitVec.ofInt 8 (((a.toNat : Int) - (b.toNat : Int)) % 256), decide (a.toNat ≥ b.toNat))

/-- Logical shift right by one, and old bit 0 (43_alu.md R209). -/
def shrFlag (a : Byte) : Byte × Bool := (BitVec.ofNat 8 (a.toNat / 2), decide (a.toNat % 2 = 1))

/-- Shift left by one, and old bit 7 (43_alu.md R211). -/
def shlFlag (a : Byte) : Byte × Bool := (BitVec.ofNat 8 (a.toNat * 2 % 256), decide (a.toNat / 128 = 1))

/-- `WriteResultAndFlag(res, f)`: both writes, in the order of VF_ORDER (43_alu.md R200). -/
def State.writeResultAndFlag (s : State) (x : Reg) (rf : Byte × Bool) : State :=
  match s.params.vfOrder with
  | .flagLast => (s.setV x rf.1).setV 15 (flagByte rf.2)
  | .resultLast => (s.setV 15 (flagByte rf.2)).setV x rf.1

end Sys2Proof.Machine
end

