-- ==== Sys2Proof/Machine/Alu.lean ====
section
/-! DEFINITION. Register arithmetic and logic (43_alu.md). Every instruction ends with `PC <- A + 2`. -/

namespace Sys2Proof.Machine

/-- 6XNN (R201). -/
def execLdImm (x : Reg) (nn : Byte) (s : State) : Result := .next ((s.setV x nn).advance 2)

/-- 7XNN (R202): wraps, and sets no flag. -/
def execAddImm (x : Reg) (nn : Byte) (s : State) : Result :=
  .next ((s.setV x (BitVec.ofNat 8 (((s.getV x).toNat + nn.toNat) % 256))).advance 2)

/-- 8XY0 (R203). -/
def execLdReg (x y : Reg) (s : State) : Result := .next ((s.setV x (s.getV y)).advance 2)

/-- 8XY1 (R204). -/
def execOrReg (x y : Reg) (s : State) : Result := .next ((s.setV x (s.getV x ||| s.getV y)).advance 2)

/-- 8XY2 (R205). -/
def execAndReg (x y : Reg) (s : State) : Result := .next ((s.setV x (s.getV x &&& s.getV y)).advance 2)

/-- 8XY3 (R206). -/
def execXorReg (x y : Reg) (s : State) : Result := .next ((s.setV x (s.getV x ^^^ s.getV y)).advance 2)

/-- 8XY4 (R207). -/
def execAddReg (x y : Reg) (s : State) : Result :=
  .next ((s.writeResultAndFlag x (addFlag (s.getV x) (s.getV y))).advance 2)

/-- 8XY5 (R208). -/
def execSubReg (x y : Reg) (s : State) : Result :=
  .next ((s.writeResultAndFlag x (subFlag (s.getV x) (s.getV y))).advance 2)

/-- 8XY6 (R209). -/
def execShr (x y : Reg) (s : State) : Result :=
  .next ((s.writeResultAndFlag x (shrFlag (s.shiftOperand x y))).advance 2)

/-- 8XY7 (R210). -/
def execSubnReg (x y : Reg) (s : State) : Result :=
  .next ((s.writeResultAndFlag x (subFlag (s.getV y) (s.getV x))).advance 2)

/-- 8XYE (R211). -/
def execShl (x y : Reg) (s : State) : Result :=
  .next ((s.writeResultAndFlag x (shlFlag (s.shiftOperand x y))).advance 2)

/-- CXNN (R212): this cycle's random byte. -/
def execRnd (x : Reg) (nn : Byte) (s : State) : Result := .next ((s.setV x (s.input.rand &&& nn)).advance 2)

end Sys2Proof.Machine
end

