-- ==== Sys2Proof/Machine/Control.lean ====
section
/-! DEFINITION. Control transfer and skips (41_control.md). `A`, the address of the instruction, is `s.pc`. -/

namespace Sys2Proof.Machine

/-- 00EE (R131): pop the address of a 2NNN, and go past it. -/
def execRet (s : State) : Result :=
  if s.sp = 0 then .next (s.raiseHalt .stackUnderflow)
  else if stackEntryInMemory s.sp.toNat then
    .next (({ s with sp := s.sp - 1 } : State).setPc ((s.stackRead s.sp.toNat).toNat + 2))
  else .fault .stackEntryOutsideMemory

/-- 0NNN (R132): a no-op. -/
def execSys (_nnn : BitVec 12) (s : State) : Result := .next (s.advance 2)

/-- 1NNN (R133). -/
def execJp (nnn : BitVec 12) (s : State) : Result := .next (s.setPc nnn.toNat)

/-- 2NNN (R134): push the call's own address, and jump. -/
def execCall (nnn : BitVec 12) (s : State) : Result :=
  if s.sp.toNat = Config.stackCapacity then .next (s.raiseHalt .stackOverflow)
  else if stackEntryInMemory (s.sp.toNat + 1) then
    .next (({ s.stackWrite (s.sp.toNat + 1) s.pc with sp := s.sp + 1 } : State).setPc nnn.toNat)
  else .fault .stackEntryOutsideMemory

/-- 3XNN (R135). -/
def execSeImm (x : Reg) (nn : Byte) (s : State) : Result := .next (s.skipIf (s.getV x == nn))

/-- 4XNN (R136). -/
def execSneImm (x : Reg) (nn : Byte) (s : State) : Result := .next (s.skipIf (s.getV x != nn))

/-- 5XY0 (R137). -/
def execSeReg (x y : Reg) (s : State) : Result := .next (s.skipIf (s.getV x == s.getV y))

/-- 9XY0 (R138). -/
def execSneReg (x y : Reg) (s : State) : Result := .next (s.skipIf (s.getV x != s.getV y))

/-- BNNN (R139): the sum is not masked to 12 bits. -/
def execJpV0 (nnn : BitVec 12) (s : State) : Result := .next (s.setPc (nnn.toNat + (s.getV 0).toNat))

/-- 00FD (R140): the status is EXIT_REQUEST, and nothing else but the pc changes. -/
def execExitReq (s : State) : Result := .next (({ s with out := .exitRequest } : State).advance 2)

end Sys2Proof.Machine
end

