-- ==== Sys2Proof/Machine/Framebuffer.lean ====
section
/-! DEFINITION. The bit-packed plane: pixel addressing, sprite compositing and scrolling (42_display.md R160 to R168). -/

namespace Sys2Proof.Machine

/-- The plane `D[0..1023]` (10_state.md R35). -/
abbrev Plane := Bytes Config.dispBytes

/-- The row stride S = W / 8 (42_display.md R160). -/
def stride (ext : Bool) : Nat := Config.width ext / 8

/-- `byte(x, y)`: the byte of the plane that holds a pixel (42_display.md R161). -/
def pixelByte (ext : Bool) (x y : Nat) : Nat := y * stride ext + x / 8

/-- `mask(x)`: the pixel's bit in that byte, most significant bit leftmost (42_display.md R161). -/
def pixelMask (x : Nat) : Byte := 0x80#8 >>> (x % 8)

/-- `Pix(x, y)` (42_display.md R161). -/
def getPix (ext : Bool) (d : Plane) (x y : Nat) : Bool := d.get (pixelByte ext x y) &&& pixelMask x != 0

/-- `Pix(x, y) <- b` (42_display.md R161). -/
def setPix (ext : Bool) (d : Plane) (x y : Nat) (b : Bool) : Plane :=
  let old := d.get (pixelByte ext x y)
  d.set (pixelByte ext x y) (if b then old ||| pixelMask x else old &&& ~~~ pixelMask x)

/-- One set sprite bit at plane pixel (px, py): note a collision and invert the pixel (42_display.md R164). -/
def plotBit (ext : Bool) (px py : Nat) (acc : Plane × Bool) : Plane × Bool :=
  let on := getPix ext acc.1 px py
  (setPix ext acc.1 px py (!on), acc.2 || on)

/-- One row of `Draw`: its columns from left to right (42_display.md R164). -/
def drawRow (ext : Bool) (x0 py cols : Nat) (bit : Nat → Bool) (acc : Plane × Bool) : Plane × Bool :=
  (List.range cols).foldl
    (fun acc c => if bit c then plotBit ext ((x0 + c) % Config.width ext) py acc else acc) acc

/-- `Draw(x0, y0, R, C, bit)`: the plane after it, and the collision (42_display.md R164). -/
def drawSprite (ext : Bool) (d : Plane) (x0 y0 rows cols : Nat) (bit : Nat → Nat → Bool) : Plane × Bool :=
  (List.range rows).foldl
    (fun acc r => drawRow ext x0 ((y0 + r) % Config.height ext) cols (bit r) acc) (d, false)

/-- Bit (r, c) of a normal sprite: bit `7 - c` of `M[I + r]` (42_display.md R163). -/
def State.spriteBit (s : State) (r c : Nat) : Bool := (s.readByte (s.i.toNat + r)).getLsbD (7 - c)

/-- Bit (r, c) of the extended sprite: bit `7 - (c mod 8)` of `M[I + 2r + c/8]` (42_display.md R163, R172). -/
def State.spriteBitExt (s : State) (r c : Nat) : Bool :=
  (s.readByte (s.i.toNat + 2 * r + c / 8)).getLsbD (7 - c % 8)

/-- The effect of a draw whose range check has passed: the sprite at (V[x], V[y]), then VF, then the pc (42_display.md R171,
R172). The coordinates are read before VF is written. -/
def State.drawAt (s : State) (x y : Reg) (rows cols : Nat) (bit : Nat → Nat → Bool) : State :=
  let drawn := drawSprite s.ext s.plane (s.getV x).toNat (s.getV y).toNat rows cols bit
  (({ s with plane := drawn.1 } : State).setV 15 (if drawn.2 then 1 else 0)).advance 2

/-- Eight pixels as a byte, pixel 0 in bit 7 (42_display.md R161). -/
def packPixels (f : Nat → Bool) : Byte :=
  BitVec.ofNat 8 ((List.range 8).foldl (fun acc j => 2 * acc + (f j).toNat) 0)

/-- Every pixel of the current resolution replaced at once by `f x y`; bytes outside the resolution keep their values
(42_display.md R162, R166 to R168). -/
def repaint (ext : Bool) (f : Nat → Nat → Bool) (d : Plane) : Plane :=
  Bytes.build Config.dispBytes fun b =>
    if b < stride ext * Config.height ext then
      packPixels fun j => f (b % stride ext * 8 + j) (b / stride ext)
    else d.get b

/-- Scroll down by `n` rows: zero fill, no wrap (42_display.md R166). -/
def scrollDown (ext : Bool) (n : Nat) (d : Plane) : Plane :=
  repaint ext (fun x y => decide (y ≥ n) && getPix ext d x (y - n)) d

/-- Scroll right by 4 pixels: zero fill, no wrap (42_display.md R167). -/
def scrollRight (ext : Bool) (d : Plane) : Plane :=
  repaint ext (fun x y => decide (x ≥ 4) && getPix ext d (x - 4) y) d

/-- Scroll left by 4 pixels: zero fill, no wrap (42_display.md R168). -/
def scrollLeft (ext : Bool) (d : Plane) : Plane :=
  repaint ext (fun x y => decide (x + 4 < Config.width ext) && getPix ext d (x + 4) y) d

end Sys2Proof.Machine
end

