-- ==== Sys2Proof/Machine/Display.lean ====
section
/-! DEFINITION. The display instructions (42_display.md). -/

namespace Sys2Proof.Machine

/-- 00E0 (R165): the whole plane, in either mode. -/
def execCls (s : State) : Result := .next (({ s with plane := Bytes.zeros Config.dispBytes } : State).advance 2)

/-- 00CN (R166): N rows of the current resolution; N = 0 changes nothing but the pc. -/
def execScd (n : Fin 16) (s : State) : Result :=
  .next (({ s with plane := scrollDown s.ext n.val s.plane } : State).advance 2)

/-- 00FB (R167). -/
def execScr (s : State) : Result := .next (({ s with plane := scrollRight s.ext s.plane } : State).advance 2)

/-- 00FC (R168). -/
def execScl (s : State) : Result := .next (({ s with plane := scrollLeft s.ext s.plane } : State).advance 2)

/-- 00FE (R169): the plane is kept (R162). -/
def execLow (s : State) : Result := .next (({ s with ext := false } : State).advance 2)

/-- 00FF (R170): the plane is kept (R162). -/
def execHigh (s : State) : Result := .next (({ s with ext := true } : State).advance 2)

/-- DXYN (R171). -/
def execDrw (x y : Reg) (n : Fin 16) (s : State) : Result :=
  .next (guardRange s n.val (s.drawAt x y n.val 8 s.spriteBit))

/-- DXY0 (R172): 16 x 16 in either resolution. -/
def execDrwExt (x y : Reg) (s : State) : Result :=
  .next (guardRange s Config.extSpriteBytes (s.drawAt x y 16 16 s.spriteBitExt))

end Sys2Proof.Machine
end

