-- ==== Sys2Proof/Machine/Index.lean ====
section
/-! DEFINITION. The index register and memory transfer (44_index_memory.md). -/

namespace Sys2Proof.Machine

/-- ANNN (R230). -/
def execLdI (nnn : BitVec 12) (s : State) : Result := .next ((s.setI nnn.toNat).advance 2)

/-- FX1E (R231): modulo 65536, and no flag. -/
def execAddI (x : Reg) (s : State) : Result := .next ((s.setI (s.i.toNat + (s.getV x).toNat)).advance 2)

/-- FX29 (R232): the value is not masked to a digit. -/
def execLdF (x : Reg) (s : State) : Result :=
  .next ((s.setI ((s.getV x).toNat * Config.loGlyphSize)).advance 2)

/-- FX30 (R233): the value is not masked to a digit. -/
def execLdHF (x : Reg) (s : State) : Result :=
  .next ((s.setI (Config.hiGlyphBase + (s.getV x).toNat * Config.hiGlyphSize)).advance 2)

/-- FX33 (R234). -/
def execLdB (x : Reg) (s : State) : Result :=
  .next (guardRange s 3 ((s.writeBytes s.i.toNat (decimalDigits (s.getV x))).advance 2))

/-- FX55 (R235). -/
def execStoreRegs (x : Reg) (s : State) : Result :=
  .next (guardRange s (x.val + 1)
    (({ s.writeBytes s.i.toNat (s.regRange x) with i := s.indexAfter x } : State).advance 2))

/-- FX65 (R236): the reads use `I` as it was before the instruction. -/
def execLoadRegs (x : Reg) (s : State) : Result :=
  .next (guardRange s (x.val + 1) (({ s with v := s.loadedRegs x, i := s.indexAfter x } : State).advance 2))

/-- 00FA (R237). -/
def execTogi (s : State) : Result := .next (({ s with inc := !s.inc } : State).advance 2)

end Sys2Proof.Machine
end

