-- ==== Sys2Proof/Machine/TimersKeys.lean ====
section
/-! DEFINITION. Keyboard and timer instructions (45_timers_keys.md). -/

namespace Sys2Proof.Machine

/-- EX9E (R261). -/
def execSkp (x : Reg) (s : State) : Result := .next (s.skipOnKey (s.getV x) true)

/-- EXA1 (R262). -/
def execSknp (x : Reg) (s : State) : Result := .next (s.skipOnKey (s.getV x) false)

/-- FX07 (R264): `DT` after this cycle's tick. -/
def execLdVxDt (x : Reg) (s : State) : Result := .next ((s.setV x s.dt).advance 2)

/-- FX0A (R263): with no key down the pc stays, so the next cycle runs it again; a wait is no halt. -/
def execLdVxK (x : Reg) (s : State) : Result :=
  .next (match s.lowestKey with
    | none => s
    | some k => (if s.params.fx0aWritesKey then s.setV x (BitVec.ofNat 8 k) else s).advance 2)

/-- FX15 (R265): `PH` is not reset. -/
def execLdDtVx (x : Reg) (s : State) : Result := .next (({ s with dt := s.getV x } : State).advance 2)

/-- FX18 (R266). -/
def execLdStVx (x : Reg) (s : State) : Result := .next (({ s with st := s.getV x } : State).advance 2)

end Sys2Proof.Machine
end

