-- ==== Sys2Proof/Machine/Cycle.lean ====
section
/-! DEFINITION. One Advance (40_cycle.md R110): sampling the inputs, the timer tick, the end-of-program check, fetch, decode and
execute; and the placing of an instruction where the next Advance fetches it. -/

namespace Sys2Proof.Machine

/-- The start of a cycle: the status is CONTINUE (R110) and the inputs are sampled once (R119), from the host's list, or free
where the host has fixed none (60_exceptions.md R300, R301; log entry 3). -/
def sampleInputs (s : State) : State :=
  match s.pending with
  | inp :: rest => { s with out := .cont, input := inp, pending := rest }
  | [] => { s with
      out := .cont
      input := { keys := Config.freeKeys s.draws, rand := Config.freeRand s.draws }
      draws := s.draws + 1 }

/-- Step 1, `TimerTick()` (60_exceptions.md R290): a nonzero timer falls by one at the end of each period. -/
def timerTick (s : State) : State :=
  if s.ph + 1 ≥ Config.timerPeriod s.ext then
    { s with
      ph := 0
      dt := if s.dt.toNat > 0 then BitVec.ofNat 8 (s.dt.toNat - 1) else s.dt
      st := if s.st.toNat > 0 then BitVec.ofNat 8 (s.st.toNat - 1) else s.st }
  else { s with ph := s.ph + 1 }

/-- The state in which the cycle's instruction runs: after step 1. -/
def beginCycle (s : State) : State := timerTick (sampleInputs s)

/-- Step 2: `PC >= 0x200 + PLEN`, with no lower bound (40_cycle.md R111). -/
def atEndOfProgram (s : State) : Bool := decide (s.pc.toNat ≥ Config.programStart + s.plen.toNat)

/-- Step 3: the opcode `M[PC] : M[PC+1]` (40_cycle.md R112), or none where `PC + 1` lies outside memory (log entry 8). -/
def fetchOpcode (s : State) : Option Opcode :=
  if s.pc.toNat + 1 < Config.memSize then
    some (opcodeOfBytes (s.readByte s.pc.toNat) (s.readByte (s.pc.toNat + 1)))
  else none

/-- Steps 4 and 5: decode and execute; an unknown opcode halts the cycle (40_cycle.md R113, R115). -/
def runOpcode (op : Opcode) (s : State) : Result :=
  match decodeOpcode op with
  | none => .next (s.raiseHalt .unknownOpcode)
  | some i => exec i s

/-- Steps 2 to 5, from the state after step 1. -/
def runCycle (s : State) : Result :=
  if atEndOfProgram s then .next (s.raiseHalt .endOfProgram)
  else match fetchOpcode s with
    | none => .fault .fetchOutsideMemory
    | some op => runOpcode op s

/-- Whether a program is loaded and the next Advance fetches at `PC`. -/
def fetchesProgram (s : State) : Bool :=
  decide (s.plen ≠ 0) && !atEndOfProgram s && decide (s.pc.toNat + 1 < Config.memSize)

/-- The opcode `op` placed where the next Advance fetches: at `PC` while a loaded program runs; otherwise as the host's load of
a program of these two bytes places it, at 0x200 with `PC` there and `PLEN` = 2 (70_reset_and_hazards.md R322; log entry 6). -/
def placeOpcode (s : State) (op : Opcode) : State :=
  let bytes : List Byte := [op.extractLsb' 8 8, op.extractLsb' 0 8]
  if fetchesProgram s then s.writeBytes s.pc.toNat bytes
  else
    { s.writeBytes Config.programStart bytes with
      pc := BitVec.ofNat 16 Config.programStart
      plen := 2 }

end Sys2Proof.Machine
end

