-- ==== Sys2Proof/Machine/Step.lean ====
section
/-! DEFINITION. One step of the machine is one Advance (00_scope.md R3; 40_cycle.md R110). -/

namespace Sys2Proof.Machine

/-- One Advance: the inputs and the timer tick, then the check, fetch, decode and execution (40_cycle.md R110). -/
def step (s : State) : Host.Outcome State Fault Refusal := runCycle (beginCycle s)

/-- The state with the instruction whose bits are `w` stored where the next step fetches (see `placeOpcode`). -/
def State.withFetchWord (s : State) (nbits w : Nat) : State := placeOpcode s (BitVec.ofNat 16 (w % 2 ^ nbits))

end Sys2Proof.Machine
end

