-- ==== Sys2Proof/Machine/HostPort.lean ====
section
/-! DEFINITION. The host's operations and queries between two Advances (00_scope.md R13): LoadProgram, the display and tone
queries, and the numeric codes of the output ports. Construct is `State.constructed`. -/

namespace Sys2Proof.Machine

/-- What LoadProgram returns (60_exceptions.md R281). -/
inductive LoadResult where
  /-- OK, code 0. -/
  | ok
  /-- PROGRAM_TOO_LARGE, code 1. -/
  | programTooLarge
deriving DecidableEq, Repr

/-- `LoadProgram(bytes)` (70_reset_and_hazards.md R322, R323): a full reset, the bytes at 0x200, `PC` there and `PLEN` their
number; a program that would reach the stack region changes nothing. The parameters and the host's coming inputs are no state
of the block and stay (log entry 10). -/
def loadProgram (bytes : List Byte) (s : State) : LoadResult × State :=
  if Config.programStart + bytes.length ≥ Config.stackStart then (.programTooLarge, s)
  else
    (.ok, { (State.constructed s.params).writeBytes Config.programStart bytes with
      pc := BitVec.ofNat 16 Config.programStart
      plen := BitVec.ofNat 16 bytes.length
      pending := s.pending
      draws := s.draws })

/-- `GetPixel(x, y)`: none outside the current resolution, where the query is refused (42_display.md R190). -/
def getPixel (s : State) (x y : Nat) : Option Bool :=
  if x < Config.width s.ext ∧ y < Config.height s.ext then some (getPix s.ext s.plane x y) else none

/-- `GetWidth()` (42_display.md R191). -/
def getWidth (s : State) : Nat := Config.width s.ext

/-- `GetHeight()` (42_display.md R191). -/
def getHeight (s : State) : Nat := Config.height s.ext

/-- `IsExtendedMode()` (42_display.md R191). -/
def isExtendedMode (s : State) : Bool := s.ext

/-- `ShouldEmitTone()` (60_exceptions.md R302). -/
def shouldEmitTone (s : State) : Bool := decide (s.st.toNat > 0)

/-- The code of a halt reason on the port `halt_reason` (60_exceptions.md R281). -/
def HaltReason.code : HaltReason → Nat
  | .endOfProgram => 1
  | .unknownOpcode => 2
  | .memoryOutOfBounds => 3
  | .stackOverflow => 4
  | .stackUnderflow => 5
  | .keyOutOfRange => 6

/-- The code on the port `status` (60_exceptions.md R281). -/
def Status.code : Status → Nat
  | .cont => 0
  | .exitRequest => 1
  | .halt _ => 2

/-- The port `halt_reason`, meaningful only when the status is HALT (60_exceptions.md R281). -/
def Status.reasonCode : Status → Option Nat
  | .halt r => some r.code
  | .cont | .exitRequest => none

/-- The code of LoadProgram's result (60_exceptions.md R281). -/
def LoadResult.code : LoadResult → Nat
  | .ok => 0
  | .programTooLarge => 1

end Sys2Proof.Machine
end

