-- ==== Sys2Proof/Safety.lean ====
section
/-! DEFINITION. What every run keeps, and whether a cycle halted. -/

namespace Sys2Proof.Machine

/-- The legal states between two cycles: memory in its canonical form, `SP` within the stack (10_state.md R27), `PH` in 0..15
(R30) and `PLEN` within the load bound (R33). -/
abbrev State.Inv (s : State) : Prop :=
  Memory.wf (resetByte s.params) s.mem ∧ s.sp.toNat ≤ Config.stackCapacity ∧ s.ph < 16 ∧ s.plen.toNat ≤ 3231

/-- The cycle that made this state halted. -/
def State.halted (s : State) : Bool :=
  match s.out with
  | .halt _ => true
  | .cont | .exitRequest => false

end Sys2Proof.Machine
end

