-- ==== Sys2Proof/Certificates/Slice0/Obligations.lean ====
section
/-! DEFINITION. The statements about the machine, each formalising the rules of spec/ its docstring cites. Helper definitions under
Sys2Proof.Claims restate tables of the spec, so that a statement can be read beside its rule. Where a rule carries the spec's mark
"decision", it is followed as the rule it is (log entry 13). -/

namespace Sys2Proof.Claims

open Sys2Proof Sys2Proof.Machine

/-- The "Encoding" line of an instruction rule: the fixed bits of its words, and that its words are its own. -/
def HasRow (i : Instr) (value mask : Opcode) : Prop :=
  encode i &&& mask = value ∧ (i.wellFormed = true → decodeOpcode (encode i) = some i)

/-- The next state changed, a stop unchanged. -/
def mapNext (f : State → State) : Host.Outcome State Fault Refusal → Host.Outcome State Fault Refusal
  | .next t => .next (f t)
  | .fault r => .fault r
  | .refused r => .refused r

/-- The instruction an Advance from `s` executes, if it reaches step 5 (40_cycle.md R110). -/
def cycleInstr (s : State) : Option Instr :=
  if s.pc.toNat ≥ 0x200 + s.plen.toNat then none else (fetchOpcode s).bind decodeOpcode

/-- The row and column counts and strides of 42_display.md R160 are Config.width, Config.height and this. -/
def planeBytes (ext : Bool) : Nat := Config.width ext / 8 * Config.height ext

/-- A flag in VF: 1 or 0. -/
def bit (f : Bool) : Byte := if f then 1 else 0

/-- The two writes of 43_alu.md R200 on the V registers, in the order of VF_ORDER. -/
def flagWrites (p : Params) (v : Bytes 16) (x : Reg) (res : Byte) (f : Bool) : Bytes 16 :=
  match p.vfOrder with
  | .flagLast => (v.set x.val res).set 15 (bit f)
  | .resultLast => (v.set 15 (bit f)).set x.val res

/-- The operand the shifts read (43_alu.md R209, R211). -/
def shiftSrc (s : State) (x y : Reg) : Byte :=
  match s.params.shiftSource with
  | .vx => s.getV x
  | .vy => s.getV y

/-- Destination, result and flag of 8XY4 to 8XYE (43_alu.md R207 to R211); none for every other instruction. -/
def resultAndFlag (s : State) : Instr → Option (Reg × Byte × Bool)
  | .addReg x y => some (x, s.getV x + s.getV y, decide ((s.getV x).toNat + (s.getV y).toNat > 255))
  | .subReg x y => some (x, s.getV x - s.getV y, decide ((s.getV x).toNat ≥ (s.getV y).toNat))
  | .subnReg x y => some (x, s.getV y - s.getV x, decide ((s.getV y).toNat ≥ (s.getV x).toNat))
  | .shr x y => some (x, shiftSrc s x y >>> 1, (shiftSrc s x y).getLsbD 0)
  | .shl x y => some (x, shiftSrc s x y <<< 1, (shiftSrc s x y).getLsbD 7)
  | _ => none

/-- The bytes an instruction touches through `I` (the table of 20_memory.md R60). -/
def rangeBytes : Instr → Option Nat
  | .drw _ _ n => some n.val
  | .drwExt _ _ => some 32
  | .ldB _ => some 3
  | .storeRegs x => some (x.val + 1)
  | .loadRegs x => some (x.val + 1)
  | _ => none

/-- The next `PC` of an instruction that does not halt (the table of 40_cycle.md R116). -/
def pcAfter (s : State) : Instr → Word
  | .seImm x nn => if s.getV x = nn then s.pc + 4 else s.pc + 2
  | .sneImm x nn => if s.getV x ≠ nn then s.pc + 4 else s.pc + 2
  | .seReg x y => if s.getV x = s.getV y then s.pc + 4 else s.pc + 2
  | .sneReg x y => if s.getV x ≠ s.getV y then s.pc + 4 else s.pc + 2
  | .skp x => if s.input.keys.getLsbD (s.getV x).toNat then s.pc + 4 else s.pc + 2
  | .sknp x => if s.input.keys.getLsbD (s.getV x).toNat then s.pc + 2 else s.pc + 4
  | .jp nnn | .call nnn => nnn.setWidth 16
  | .jpV0 nnn => nnn.setWidth 16 + (s.getV 0).setWidth 16
  | .ret => s.stackRead s.sp.toNat + 2
  | .ldVxK _ => if s.input.keys = 0 then s.pc else s.pc + 2
  | .cls | .scd _ | .togi | .scr | .scl | .exitReq | .low | .high | .sys _ | .ldImm _ _ | .addImm _ _ | .ldReg _ _
  | .orReg _ _ | .andReg _ _ | .xorReg _ _ | .addReg _ _ | .subReg _ _ | .shr _ _ | .subnReg _ _ | .shl _ _ | .ldI _
  | .rnd _ _ | .drw _ _ _ | .drwExt _ _ | .ldVxDt _ | .ldDtVx _ | .ldStVx _ | .addI _ | .ldF _ | .ldHF _ | .ldB _
  | .storeRegs _ | .loadRegs _ => s.pc + 2

/-- The condition of each halt (the table of 60_exceptions.md R282). -/
def haltCondition (s : State) : HaltReason → Prop
  | .endOfProgram => s.pc.toNat ≥ 0x200 + s.plen.toNat
  | .unknownOpcode => s.pc.toNat < 0x200 + s.plen.toNat ∧ ∃ op, fetchOpcode s = some op ∧ decodeOpcode op = none
  | .memoryOutOfBounds => ∃ i n, cycleInstr s = some i ∧ rangeBytes i = some n ∧ s.i.toNat + n > 4096
  | .stackOverflow => ∃ nnn, cycleInstr s = some (.call nnn) ∧ s.sp.toNat = 175
  | .stackUnderflow => cycleInstr s = some .ret ∧ s.sp.toNat = 0
  | .keyOutOfRange => ∃ x, (cycleInstr s = some (.skp x) ∨ cycleInstr s = some (.sknp x)) ∧ (s.getV x).toNat ≥ 16

/-- The registers an instruction may write: its destinations, and VF where 10_state.md R23 names it as implicitly written. -/
def writesReg (s : State) (k : Reg) : Instr → Prop
  | .ldImm x _ | .addImm x _ | .ldReg x _ | .orReg x _ | .andReg x _ | .xorReg x _ | .rnd x _ | .ldVxDt x => k = x
  | .addReg x _ | .subReg x _ | .shr x _ | .subnReg x _ | .shl x _ => k = x ∨ k = 15
  | .drw _ _ _ | .drwExt _ _ => k = 15
  | .loadRegs x => k ≤ x
  | .ldVxK x => s.params.fx0aWritesKey = true ∧ k = x
  | _ => False

/-- Whether set bit (r, c) of a sprite at (x0, y0) lands on pixel (x, y), with toroidal wrap (42_display.md R164). -/
def landsOn (ext : Bool) (x0 y0 r c x y : Nat) : Prop :=
  (x0 + c) % Config.width ext = x ∧ (y0 + r) % Config.height ext = y

end Sys2Proof.Claims

open Sys2Proof Sys2Proof.Machine Sys2Proof.Claims

/-! ## Encoding (30_encoding.md) -/

/-- Decode and encode agree: every instruction's word, with every operand at every value, decodes to it (30_encoding.md R80 to
R91, R96). -/
def Obligations.DecodeOfEncodeIsInstr : Prop :=
  ∀ i : Instr, i.wellFormed = true → decodeOpcode (encode i) = some i

/-- No bit of a word is dropped: a word that decodes is the word of its instruction, so no two instructions share a word and
operand bits an instruction ignores are kept (30_encoding.md R81, R96). -/
def Obligations.EncodeOfDecodeIsOpcode : Prop :=
  ∀ (op : Opcode) (i : Instr), decodeOpcode op = some i → i.wellFormed = true ∧ encode i = op

/-- 30_encoding.md R86: among the rows an opcode matches the one with the most mask bits wins; no two rows of one weight match
the same opcode; an opcode that matches none has no instruction; in group D, DXY0 wins exactly when n = 0; and 0NNN matches
whatever a row of group 0 matches. -/
def Obligations.DecodeTakesHeaviestRow : Prop :=
  (∀ op : Opcode, decodeOpcode op = none ↔ ∀ r ∈ opcodeTable, r.matchesOp op = false) ∧
  (∀ (op : Opcode) (i : Instr), decodeOpcode op = some i →
    rowOf i ∈ opcodeTable ∧ (rowOf i).matchesOp op = true ∧
      ∀ r ∈ opcodeTable, r.matchesOp op = true → r ≠ rowOf i → r.weight < (rowOf i).weight) ∧
  (∀ (op : Opcode), ∀ r ∈ opcodeTable, ∀ r' ∈ opcodeTable,
    r.matchesOp op = true → r'.matchesOp op = true → r.weight = r'.weight → r = r') ∧
  (∀ (op : Opcode), op.toNat / 4096 = 0xD →
    ((∃ x y, decodeOpcode op = some (.drwExt x y)) ↔ op.toNat % 16 = 0)) ∧
  (∀ (op : Opcode), ∀ r ∈ opRows0, r.matchesOp op = true → op &&& 0xF000 = 0)

/-- 30_encoding.md R92 and 40_cycle.md R115: the unknown opcodes are exactly the listed set, 17472 of the 65536, and executing one
halts the cycle with UNKNOWN_OPCODE, with no instruction state written and `PC` still at it. -/
def Obligations.UnknownOpcodesAreTheListedSet : Prop :=
  (∀ op : Opcode, decodeOpcode op = none ↔
    (op.toNat / 4096 = 0x5 ∧ op.toNat % 16 ≠ 0) ∨
    (op.toNat / 4096 = 0x8 ∧ op.toNat % 16 ∈ [0x8, 0x9, 0xA, 0xB, 0xC, 0xD, 0xF]) ∨
    (op.toNat / 4096 = 0x9 ∧ op.toNat % 16 ≠ 0) ∨
    (op.toNat / 4096 = 0xE ∧ op.toNat % 256 ∉ [0x9E, 0xA1]) ∨
    (op.toNat / 4096 = 0xF ∧
      op.toNat % 256 ∉ [0x07, 0x0A, 0x15, 0x18, 0x1E, 0x29, 0x30, 0x33, 0x55, 0x65])) ∧
  ((List.range 65536).countP fun w => (decodeOpcode (BitVec.ofNat 16 w)).isNone) = 17472 ∧
  (∀ (s : State) (op : Opcode), s.pc.toNat < 0x200 + s.plen.toNat → fetchOpcode s = some op → decodeOpcode op = none →
    ∃ t, step s = .next t ∧ t.out = .halt .unknownOpcode ∧ t.pc = s.pc ∧ t.mem = s.mem ∧ t.v = s.v ∧ t.i = s.i ∧
      t.sp = s.sp ∧ t.plane = s.plane ∧ t.inc = s.inc ∧ t.ext = s.ext ∧ t.plen = s.plen ∧
      t.ph = (timerTick s).ph ∧ t.dt = (timerTick s).dt ∧ t.st = (timerTick s).st)

/-- A few words written out from the patterns of 30_encoding.md R82 and R95, one of each family (sanity). -/
def Obligations.SampleWordsDecode : Prop :=
  decodeOpcode 0x00EE = some .ret ∧ decodeOpcode 0x00C5 = some (.scd 5) ∧ decodeOpcode 0x00F9 = some (.sys 0x0F9) ∧
  decodeOpcode 0x4205 = some (.sneImm 2 0x05) ∧ decodeOpcode 0x8014 = some (.addReg 0 1) ∧
  decodeOpcode 0xD123 = some (.drw 1 2 3) ∧ decodeOpcode 0xD120 = some (.drwExt 1 2) ∧
  decodeOpcode 0xE5A1 = some (.sknp 5) ∧ decodeOpcode 0xF21E = some (.addI 2) ∧ decodeOpcode 0xF075 = none

/-! ## The cycle (40_cycle.md) -/

/-- A step runs the decoded instruction: where the bytes at `PC` are those of an instruction, the Advance is `exec` of it in
the state after the timer tick (40_cycle.md R110, R112, R113). -/
def Obligations.StepRunsDecodedInstruction : Prop :=
  ∀ (s : State) (i : Instr), i.wellFormed = true → s.pc.toNat < 0x200 + s.plen.toNat → s.pc.toNat + 1 < 4096 →
    [s.readByte s.pc.toNat, s.readByte (s.pc.toNat + 1)] = encodeBytes i →
    step s = exec i (timerTick (sampleInputs s))

/-- 40_cycle.md R111: at or past 0x200 + PLEN the Advance halts with END_OF_PROGRAM, whatever memory holds; below it, with no
lower bound, no Advance does. -/
def Obligations.EndOfProgramHaltsBeforeFetch : Prop :=
  ∀ s : State,
    (s.pc.toNat ≥ 0x200 + s.plen.toNat → step s = .next { timerTick (sampleInputs s) with out := .halt .endOfProgram }) ∧
    (s.pc.toNat < 0x200 + s.plen.toNat → ∀ t, step s = .next t → t.out ≠ .halt .endOfProgram)

/-- 40_cycle.md R116: every instruction that does not halt sets `PC` to exactly the value of the rule's table. The premise is
what every cycle starts with: its status is CONTINUE (R110). -/
def Obligations.NextPcFollowsTable : Prop :=
  ∀ (i : Instr) (s t : State), s.out = .cont → exec i s = .next t → t.halted = false → t.pc = pcAfter s i

/-- 40_cycle.md R120: a cycle that halts leaves exactly the timer tick (and the ports and input list of the model, log entries 2
and 3); no halt is latched, since a step does not depend on the last status; and the next Advance halts for the same reason. -/
def Obligations.HaltKeepsOnlyTickAndRepeats : Prop :=
  (∀ (s t : State) (r : HaltReason), step s = .next t → t.out = .halt r →
    t = { s with
      ph := (timerTick s).ph
      dt := (timerTick s).dt
      st := (timerTick s).st
      out := .halt r
      input := (sampleInputs s).input
      pending := (sampleInputs s).pending
      draws := (sampleInputs s).draws } ∧
    ∃ u, step t = .next u ∧ u.out = .halt r ∧ u.pc = s.pc) ∧
  (∀ (s : State) (o : Status), step { s with out := o } = step s)

/-- 60_exceptions.md R282: an Advance halts for a reason exactly when the rule's condition for it holds, and `PC` is then
unchanged. -/
def Obligations.HaltReasonsHaveTheirConditions : Prop :=
  ∀ (s : State) (r : HaltReason),
    ((∃ t, step s = .next t ∧ t.out = .halt r) ↔ haltCondition s r) ∧
    (∀ t, step s = .next t → t.out = .halt r → t.pc = s.pc)

/-- 40_cycle.md R118: the status is EXIT_REQUEST exactly when the instruction was 00FD, which runs as a sequential no-op, and
CONTINUE only when another instruction executed. -/
def Obligations.StatusTellsWhatTheCycleDid : Prop :=
  ∀ s t : State, step s = .next t →
    (t.out = .exitRequest ↔ cycleInstr s = some .exitReq) ∧
    (t.out = .exitRequest → t = { beginCycle s with out := .exitRequest, pc := s.pc + 2 }) ∧
    (t.out = .cont → ∃ i, cycleInstr s = some i ∧ i ≠ .exitReq)

/-- 40_cycle.md R119: the inputs of a cycle are those sampled at its start and constant through it; only EX9E, EXA1 and FX0A read
the keys and only CXNN the random byte. -/
def Obligations.OnlyNamedInstructionsReadInputs : Prop :=
  (∀ s t : State, step s = .next t → t.input = (sampleInputs s).input) ∧
  (∀ (i : Instr) (s t : State), exec i s = .next t → t.input = s.input) ∧
  (∀ (i : Instr) (s : State) (k : BitVec 16), (∀ x, i ≠ .skp x ∧ i ≠ .sknp x ∧ i ≠ .ldVxK x) →
    exec i { s with input := { s.input with keys := k } } =
      mapNext (fun t => { t with input := { t.input with keys := k } }) (exec i s)) ∧
  (∀ (i : Instr) (s : State) (b : Byte), (∀ x nn, i ≠ .rnd x nn) →
    exec i { s with input := { s.input with rand := b } } =
      mapNext (fun t => { t with input := { t.input with rand := b } }) (exec i s))

/-! ## Whole-machine frames (10_state.md) -/

/-- What each instruction leaves unchanged, field by field: every element of 10_state.md R20 changes only under the
instructions its rule names as writers (R24, R26, R28, R29, R31, R32, R33, R35; 20_memory.md R51); the parameters, the inputs
and the input list never change. -/
def Obligations.OnlyNamedWritersChangeState : Prop :=
  ∀ (i : Instr) (s t : State), exec i s = .next t →
    ((∀ nnn, i ≠ .call nnn) → (∀ x, i ≠ .ldB x ∧ i ≠ .storeRegs x) →
      t.mem = s.mem ∧ ∀ a, t.readByte a = s.readByte a) ∧
    ((∀ nnn, i ≠ .ldI nnn) → (∀ x, i ≠ .addI x ∧ i ≠ .ldF x ∧ i ≠ .ldHF x) →
      (s.inc = true → ∀ x, i ≠ .storeRegs x ∧ i ≠ .loadRegs x) → t.i = s.i) ∧
    (i ≠ .ret → (∀ nnn, i ≠ .call nnn) → t.sp = s.sp) ∧
    (i ≠ .cls → (∀ n, i ≠ .scd n) → i ≠ .scr → i ≠ .scl → (∀ x y n, i ≠ .drw x y n) → (∀ x y, i ≠ .drwExt x y) →
      t.plane = s.plane) ∧
    ((∀ x, i ≠ .ldDtVx x) → t.dt = s.dt) ∧
    ((∀ x, i ≠ .ldStVx x) → t.st = s.st) ∧
    (i ≠ .togi → t.inc = s.inc) ∧
    (i ≠ .low → i ≠ .high → t.ext = s.ext) ∧
    t.ph = s.ph ∧ t.plen = s.plen ∧ t.params = s.params ∧ t.input = s.input ∧ t.pending = s.pending ∧ t.draws = s.draws

/-- The V registers' frame: an instruction changes only its destination registers, and VF where 10_state.md R23 names it as an
implicit destination (R22, R23). -/
def Obligations.OnlyDestinationRegistersChange : Prop :=
  ∀ (i : Instr) (s t : State) (k : Reg), exec i s = .next t → ¬ writesReg s k i → t.getV k = s.getV k

/-- The frame of the storing instructions: the bytes outside [I, I + 3) for FX33, [I, I + X] for FX55 and the pushed entry for
2NNN read as before (20_memory.md R57, R58; 41_control.md R134; 44_index_memory.md R234, R235). -/
def Obligations.StoresTouchOnlyTheirBytes : Prop :=
  ∀ (s t : State) (a : Nat),
    (∀ x, exec (.ldB x) s = .next t → (a < s.i.toNat ∨ s.i.toNat + 3 ≤ a) → t.readByte a = s.readByte a) ∧
    (∀ x, exec (.storeRegs x) s = .next t → (a < s.i.toNat ∨ s.i.toNat + (x.val + 1) ≤ a) →
      t.readByte a = s.readByte a) ∧
    (∀ nnn, exec (.call nnn) s = .next t →
      (a < 0xEA0 + 2 * (s.sp.toNat + 1) ∨ 0xEA0 + 2 * (s.sp.toNat + 1) + 2 ≤ a) → t.readByte a = s.readByte a)

/-- 10_state.md R31 and 44_index_memory.md R237: INC is written only by 00FA, which toggles it, so that twice restores it, and read
only by FX55 and FX65, which add X + 1 to `I` when it is 1 and leave `I` when it is 0. -/
def Obligations.IncGovernsIndexAdvance : Prop :=
  HasRow .togi 0x00FA 0xFFFF ∧
  (∀ (i : Instr) (s t : State), i ≠ .togi → exec i s = .next t → t.inc = s.inc) ∧
  (∀ s : State, exec .togi s = .next { s with inc := !s.inc, pc := s.pc + 2 }) ∧
  (∀ s t u : State, exec .togi s = .next t → exec .togi t = .next u → u = { s with pc := s.pc + 4 }) ∧
  (∀ (i : Instr) (s : State) (b : Bool), i ≠ .togi → (∀ x, i ≠ .storeRegs x ∧ i ≠ .loadRegs x) →
    exec i { s with inc := b } = mapNext (fun t => { t with inc := b }) (exec i s)) ∧
  (∀ (s : State) (x : Reg) (i : Instr), i = .storeRegs x ∨ i = .loadRegs x → s.i.toNat + (x.val + 1) ≤ 4096 →
    ∃ t, exec i s = .next t ∧
      (s.inc = false → t.i = s.i) ∧ (s.inc = true → t.i = s.i + BitVec.ofNat 16 (x.val + 1)))

/-! ## Timers (60_exceptions.md) -/

/-- 60_exceptions.md R290: the tick counts `PH` up; when it reaches the period of the current `EXT` each nonzero timer falls by
one and `PH` is 0; nothing else changes. -/
def Obligations.TimerTickCountsDown : Prop :=
  ∀ s : State,
    (s.ph + 1 < (if s.ext then 8 else 16) → timerTick s = { s with ph := s.ph + 1 }) ∧
    (s.ph + 1 ≥ (if s.ext then 8 else 16) →
      timerTick s = { s with
        ph := 0
        dt := if s.dt = 0 then 0 else s.dt - 1
        st := if s.st = 0 then 0 else s.st - 1 })

/-- A consequence the spec marks as derived from its rule R290 (60_exceptions.md R291): over any 16 consecutive cycles in low resolution, or 8 in high, exactly one tick decrements, and each
timer falls by one, floored at 0, unless FX15 or FX18 writes it; from PH = 0 the decrement is in the last cycle of the run.
Cycles that halt or wait count like any other: the run is of Advances, whatever they do. -/
def Obligations.TimersFallOncePerPeriod : Prop :=
  ∀ (f : Nat → State) (e : Bool),
    (∀ k, k < Config.timerPeriod e → step (f k) = .next (f (k + 1)) ∧ (f k).ext = e) →
    (∃ k, (k < Config.timerPeriod e ∧ (f (k + 1)).ph = 0) ∧
      ∀ j, j < Config.timerPeriod e ∧ (f (j + 1)).ph = 0 → j = k) ∧
    ((∀ k x, k < Config.timerPeriod e → cycleInstr (f k) ≠ some (.ldDtVx x)) →
      (f (Config.timerPeriod e)).dt.toNat = (f 0).dt.toNat - 1 ∧
      ((f 0).ph = 0 → ∀ k, k < Config.timerPeriod e → (f k).dt = (f 0).dt)) ∧
    ((∀ k x, k < Config.timerPeriod e → cycleInstr (f k) ≠ some (.ldStVx x)) →
      (f (Config.timerPeriod e)).st.toNat = (f 0).st.toNat - 1 ∧
      ((f 0).ph = 0 → ∀ k, k < Config.timerPeriod e → (f k).st = (f 0).st))

/-- The tick precedes the instruction in every cycle (70_reset_and_hazards.md R329): `PH` after a step is that of the tick under
the old `EXT`, whatever the instruction does to `EXT`, and the timers are those of the tick unless the instruction wrote them. -/
def Obligations.TickPrecedesInstruction : Prop :=
  ∀ s t : State, step s = .next t →
    t.ph = (timerTick s).ph ∧
    ((∀ x, cycleInstr s ≠ some (.ldDtVx x)) → t.dt = (timerTick s).dt) ∧
    ((∀ x, cycleInstr s ≠ some (.ldStVx x)) → t.st = (timerTick s).st)

/-! ## Memory and stack (20_memory.md) -/

/-- 20_memory.md R58: a stack entry is the two bytes at 0xEA0 + 2k in the order STACK_ENDIAN; what StackWrite writes StackRead
forms again, and no other byte changes. -/
def Obligations.StackEntryIsTwoBytes : Prop :=
  ∀ (s : State) (k : Nat) (w : Word), s.Inv → k ≤ 175 →
    (s.params.stackEndian = .little →
      (s.stackWrite k w).readByte (0xEA0 + 2 * k) = w.extractLsb' 0 8 ∧
      (s.stackWrite k w).readByte (0xEA0 + 2 * k + 1) = w.extractLsb' 8 8) ∧
    (s.params.stackEndian = .big →
      (s.stackWrite k w).readByte (0xEA0 + 2 * k) = w.extractLsb' 8 8 ∧
      (s.stackWrite k w).readByte (0xEA0 + 2 * k + 1) = w.extractLsb' 0 8) ∧
    (s.stackWrite k w).stackRead k = w ∧
    (∀ a, a ≠ 0xEA0 + 2 * k → a ≠ 0xEA0 + 2 * k + 1 → (s.stackWrite k w).readByte a = s.readByte a)

/-- An inference the spec marks as derived from R33 and R111 (20_memory.md R62), with R59's byte order: in every legal state a fetch never reaches outside memory; a fetched `PC` is
at most 0xE9E, and the opcode's high byte is the one at `PC`. -/
def Obligations.FetchStaysInsideMemory : Prop :=
  ∀ s : State, s.Inv → s.pc.toNat < 0x200 + s.plen.toNat →
    s.pc.toNat ≤ 0xE9E ∧ s.pc.toNat + 1 ≤ 0xE9F ∧
    ∃ op, fetchOpcode s = some op ∧
      op.toNat = (s.readByte s.pc.toNat).toNat * 256 + (s.readByte (s.pc.toNat + 1)).toNat

/-- 20_memory.md R60: an instruction whose bytes through `I` would pass memory's end, in unbounded arithmetic, halts with
MEMORY_OUT_OF_BOUNDS and writes nothing; otherwise it completes without a halt. For FX55 and FX65 the check is the spec's decision D20. -/
def Obligations.RangeCheckPrecedesAnyWrite : Prop :=
  ∀ (s : State) (i : Instr) (n : Nat), rangeBytes i = some n →
    (s.i.toNat + n > 4096 → exec i s = .next { s with out := .halt .memoryOutOfBounds }) ∧
    (s.i.toNat + n ≤ 4096 → ∃ t, exec i s = .next t ∧ t.out = s.out ∧ t.pc = s.pc + 2)

/-- An inference the spec marks as derived from 20_memory.md R65 (70_reset_and_hazards.md R328): a store by FX33 or FX55 into the next instruction's address takes effect for the very next
fetch. -/
def Obligations.StoreIsSeenByNextFetch : Prop :=
  ∀ (s t : State), s.Inv → s.i = s.pc + 2 → s.pc.toNat + 5 ≤ 4096 →
    (∀ x, exec (.ldB x) s = .next t →
      fetchOpcode t = some (BitVec.ofNat 8 ((s.getV x).toNat / 100) ++ BitVec.ofNat 8 ((s.getV x).toNat / 10 % 10))) ∧
    (∀ x : Reg, 1 ≤ x.val → s.pc.toNat + 2 + (x.val + 1) ≤ 4096 → exec (.storeRegs x) s = .next t →
      fetchOpcode t = some (s.getV 0 ++ s.getV 1))

/-! ## Control transfer (41_control.md) -/

/-- 41_control.md R131: 00EE halts with STACK_UNDERFLOW on an empty stack, with nothing written; otherwise it pops the entry
(its bytes stay) and goes to the address after it, modulo 65536. -/
def Obligations.RetPopsAndGoesPastTheCall : Prop :=
  HasRow .ret 0x00EE 0xFFFF ∧
  ∀ s : State,
    (s.sp = 0 → exec .ret s = .next { s with out := .halt .stackUnderflow }) ∧
    (s.sp ≠ 0 → s.sp.toNat ≤ 175 →
      exec .ret s = .next { s with
        sp := s.sp - 1
        pc := (match s.params.stackEndian with
          | .little => s.readByte (0xEA0 + 2 * s.sp.toNat + 1) ++ s.readByte (0xEA0 + 2 * s.sp.toNat)
          | .big => s.readByte (0xEA0 + 2 * s.sp.toNat) ++ s.readByte (0xEA0 + 2 * s.sp.toNat + 1)) + 2 })

/-- 41_control.md R134: 2NNN halts with STACK_OVERFLOW at SP = 175, with nothing written; otherwise it pushes its own address in
the order STACK_ENDIAN, writes no other byte, and jumps. -/
def Obligations.CallPushesItsOwnAddress : Prop :=
  ∀ (s : State) (nnn : BitVec 12),
    HasRow (.call nnn) 0x2000 0xF000 ∧
    (s.sp.toNat = 175 → exec (.call nnn) s = .next { s with out := .halt .stackOverflow }) ∧
    (s.Inv → s.sp.toNat < 175 →
      ∃ t, exec (.call nnn) s = .next t ∧
        t = { s with mem := t.mem, sp := s.sp + 1, pc := nnn.setWidth 16 } ∧
        t.readByte (0xEA0 + 2 * (s.sp.toNat + 1)) =
          (if s.params.stackEndian = .little then s.pc.extractLsb' 0 8 else s.pc.extractLsb' 8 8) ∧
        t.readByte (0xEA0 + 2 * (s.sp.toNat + 1) + 1) =
          (if s.params.stackEndian = .little then s.pc.extractLsb' 8 8 else s.pc.extractLsb' 0 8) ∧
        ∀ a, a ≠ 0xEA0 + 2 * (s.sp.toNat + 1) → a ≠ 0xEA0 + 2 * (s.sp.toNat + 1) + 1 → t.readByte a = s.readByte a)

/-- A return undoes a call: it lands on the instruction after the call with the stack as deep as before, whatever the subroutine
did to the rest of the machine but its stack entry (41_control.md R131, R134, R141; 10_state.md R26). -/
def Obligations.RetUndoesCall : Prop :=
  ∀ (s t u : State) (nnn : BitVec 12), s.Inv → s.sp.toNat < 175 → exec (.call nnn) s = .next t →
    u.sp = t.sp → u.params = t.params →
    u.readByte (0xEA0 + 2 * t.sp.toNat) = t.readByte (0xEA0 + 2 * t.sp.toNat) →
    u.readByte (0xEA0 + 2 * t.sp.toNat + 1) = t.readByte (0xEA0 + 2 * t.sp.toNat + 1) →
    exec .ret u = .next { u with sp := s.sp, pc := s.pc + 2 }

/-- 41_control.md R130, R135, R136, R137 and R138: the four register skips pass over the next two bytes, never decoded, exactly
when their condition holds, and change nothing but `PC`. -/
def Obligations.SkipsTestTheirCondition : Prop :=
  ∀ (s : State) (x y : Reg) (nn : Byte),
    HasRow (.seImm x nn) 0x3000 0xF000 ∧ HasRow (.sneImm x nn) 0x4000 0xF000 ∧
    HasRow (.seReg x y) 0x5000 0xF00F ∧ HasRow (.sneReg x y) 0x9000 0xF00F ∧
    exec (.seImm x nn) s = .next { s with pc := if s.getV x = nn then s.pc + 4 else s.pc + 2 } ∧
    exec (.sneImm x nn) s = .next { s with pc := if s.getV x = nn then s.pc + 2 else s.pc + 4 } ∧
    exec (.seReg x y) s = .next { s with pc := if s.getV x = s.getV y then s.pc + 4 else s.pc + 2 } ∧
    exec (.sneReg x y) s = .next { s with pc := if s.getV x = s.getV y then s.pc + 2 else s.pc + 4 }

/-- 41_control.md R132, R133 and R139: 0NNN only advances `PC`; 1NNN goes to NNN, odd or not; BNNN to NNN + V0, not masked to 12
bits. A target at or past 0x200 + PLEN halts with END_OF_PROGRAM at the next cycle. -/
def Obligations.JumpsGoToTheirTarget : Prop :=
  ∀ (s : State) (nnn : BitVec 12),
    HasRow (.sys nnn) 0x0000 0xF000 ∧ HasRow (.jp nnn) 0x1000 0xF000 ∧ HasRow (.jpV0 nnn) 0xB000 0xF000 ∧
    exec (.sys nnn) s = .next { s with pc := s.pc + 2 } ∧
    exec (.jp nnn) s = .next { s with pc := nnn.setWidth 16 } ∧
    exec (.jpV0 nnn) s = .next { s with pc := BitVec.ofNat 16 (nnn.toNat + (s.getV 0).toNat) } ∧
    (nnn.toNat ≥ 0x200 + s.plen.toNat →
      ∃ t u, exec (.jp nnn) s = .next t ∧ step t = .next u ∧ u.out = .halt .endOfProgram) ∧
    (nnn.toNat + (s.getV 0).toNat ≥ 0x200 + s.plen.toNat →
      ∃ t u, exec (.jpV0 nnn) s = .next t ∧ step t = .next u ∧ u.out = .halt .endOfProgram)

/-- 41_control.md R140: 00FD sets the status to EXIT_REQUEST and advances `PC`; no other state changes and nothing is latched: the
next Advance starts from CONTINUE at A + 2. -/
def Obligations.ExitRequestOnlySignals : Prop :=
  HasRow .exitReq 0x00FD 0xFFFF ∧
  ∀ s : State,
    exec .exitReq s = .next { s with out := .exitRequest, pc := s.pc + 2 } ∧
    ∀ t, exec .exitReq s = .next t → (beginCycle t).out = .cont ∧ (beginCycle t).pc = s.pc + 2

/-! ## Display (42_display.md) -/

/-- 42_display.md R161: pixel (x, y) is one bit of byte y * S + x / 8, most significant bit leftmost; writing it changes that pixel
and no other, and no other byte. -/
def Obligations.PixelIsOneBit : Prop :=
  ∀ (ext : Bool) (d : Plane) (x y : Nat), x < Config.width ext → y < Config.height ext →
    y * (Config.width ext / 8) + x / 8 < planeBytes ext ∧
    getPix ext d x y = (d.get (y * (Config.width ext / 8) + x / 8)).getLsbD (7 - x % 8) ∧
    ∀ b : Bool,
      (∀ x' y', x' < Config.width ext → y' < Config.height ext →
        getPix ext (setPix ext d x y b) x' y' = if x' = x ∧ y' = y then b else getPix ext d x' y') ∧
      (∀ k, k ≠ y * (Config.width ext / 8) + x / 8 → (setPix ext d x y b).get k = d.get k)

/-- 42_display.md R162: in low resolution nothing but 00E0 touches bytes 256..1023, which it clears; 00FE and 00FF keep the plane;
and the same bytes read in high resolution join two low-resolution rows side by side (the spec's decision D28). -/
def Obligations.PlaneMeaningFollowsMode : Prop :=
  (∀ (i : Instr) (s t : State), s.ext = false → i ≠ .cls → exec i s = .next t →
    ∀ k, 256 ≤ k → t.plane.get k = s.plane.get k) ∧
  (∀ s t : State, exec .cls s = .next t → ∀ k, k < 1024 → t.plane.get k = 0) ∧
  (∀ s t : State, exec .low s = .next t ∨ exec .high s = .next t → t.plane = s.plane) ∧
  (∀ (d : Plane) (x y : Nat), x < 128 → y < 16 → getPix true d x y = getPix false d (x % 64) (2 * y + x / 64))

/-- 42_display.md R164 for sprites no wider or taller than the screen, as every sprite is (R173): each pixel under a set bit, with
toroidal wrap of its own coordinates, is inverted, every other pixel kept; the collision is 1 exactly when a pixel under a set
bit was on; no byte outside the resolution changes. -/
def Obligations.DrawInvertsPixelsUnderSetBits : Prop :=
  ∀ (ext : Bool) (d : Plane) (x0 y0 rows cols : Nat) (spr : Nat → Nat → Bool),
    rows ≤ Config.height ext → cols ≤ Config.width ext →
    (∀ x y, x < Config.width ext → y < Config.height ext →
      ((∃ r c, r < rows ∧ c < cols ∧ spr r c = true ∧ landsOn ext x0 y0 r c x y) →
        getPix ext (drawSprite ext d x0 y0 rows cols spr).1 x y = !getPix ext d x y) ∧
      ((¬ ∃ r c, r < rows ∧ c < cols ∧ spr r c = true ∧ landsOn ext x0 y0 r c x y) →
        getPix ext (drawSprite ext d x0 y0 rows cols spr).1 x y = getPix ext d x y)) ∧
    ((drawSprite ext d x0 y0 rows cols spr).2 = true ↔
      ∃ r c, r < rows ∧ c < cols ∧ spr r c = true ∧
        getPix ext d ((x0 + c) % Config.width ext) ((y0 + r) % Config.height ext) = true) ∧
    (∀ k, planeBytes ext ≤ k → (drawSprite ext d x0 y0 rows cols spr).1.get k = d.get k)

/-- Consequences the spec marks as derived from R164 (42_display.md R173): no two set bits of one sprite land on the same pixel; drawing the same sprite twice restores the plane; and
the second draw collides exactly when some pixel under a set bit was off before the first. -/
def Obligations.DrawingTwiceRestoresThePlane : Prop :=
  ∀ (ext : Bool) (d : Plane) (x0 y0 rows cols : Nat) (spr : Nat → Nat → Bool), rows ≤ 16 → cols ≤ 16 →
    (∀ r c r' c' x y, r < rows → c < cols → r' < rows → c' < cols →
      landsOn ext x0 y0 r c x y → landsOn ext x0 y0 r' c' x y → r = r' ∧ c = c') ∧
    (drawSprite ext (drawSprite ext d x0 y0 rows cols spr).1 x0 y0 rows cols spr).1 = d ∧
    ((drawSprite ext (drawSprite ext d x0 y0 rows cols spr).1 x0 y0 rows cols spr).2 = true ↔
      ∃ r c, r < rows ∧ c < cols ∧ spr r c = true ∧
        getPix ext d ((x0 + c) % Config.width ext) ((y0 + r) % Config.height ext) = false)

/-- 42_display.md R171: DXYN halts when its N bytes would pass memory's end; otherwise it draws the 8-wide sprite of
the bytes at `I` at (VX, VY), read before VF is written, and VF ends as the collision. -/
def Obligations.DrawNormalSprite : Prop :=
  ∀ (s : State) (x y : Reg) (n : Fin 16), n ≠ 0 →
    HasRow (.drw x y n) 0xD000 0xF000 ∧
    (s.i.toNat + n.val > 4096 → exec (.drw x y n) s = .next { s with out := .halt .memoryOutOfBounds }) ∧
    (s.i.toNat + n.val ≤ 4096 →
      ∃ p coll, exec (.drw x y n) s = .next { s with plane := p, v := s.v.set 15 (bit coll), pc := s.pc + 2 } ∧
        (p, coll) = drawSprite s.ext s.plane (s.getV x).toNat (s.getV y).toNat n.val 8
          fun r c => (s.readByte (s.i.toNat + r)).getLsbD (7 - c))

/-- 42_display.md R172: DXY0 halts when its 32 bytes would pass memory's end; otherwise it draws the 16 x 16 sprite, in
either resolution, and VF ends as the collision. -/
def Obligations.DrawExtendedSprite : Prop :=
  ∀ (s : State) (x y : Reg),
    HasRow (.drwExt x y) 0xD000 0xF00F ∧
    (s.i.toNat + 32 > 4096 → exec (.drwExt x y) s = .next { s with out := .halt .memoryOutOfBounds }) ∧
    (s.i.toNat + 32 ≤ 4096 →
      ∃ p coll, exec (.drwExt x y) s = .next { s with plane := p, v := s.v.set 15 (bit coll), pc := s.pc + 2 } ∧
        (p, coll) = drawSprite s.ext s.plane (s.getV x).toNat (s.getV y).toNat 16 16
          fun r c => (s.readByte (s.i.toNat + 2 * r + c / 8)).getLsbD (7 - c % 8))

/-- 42_display.md R166: 00CN moves every row of the current resolution down by N, zero-fills the top, does not wrap, and touches no
byte outside the resolution; N = 0 changes nothing. -/
def Obligations.ScrollDownMovesRows : Prop :=
  ∀ (s : State) (n : Fin 16),
    HasRow (.scd n) 0x00C0 0xFFF0 ∧
    ∃ p, exec (.scd n) s = .next { s with plane := p, pc := s.pc + 2 } ∧
      (∀ x y, x < Config.width s.ext → y < Config.height s.ext →
        getPix s.ext p x y = if y ≥ n.val then getPix s.ext s.plane x (y - n.val) else false) ∧
      (∀ k, planeBytes s.ext ≤ k → p.get k = s.plane.get k) ∧
      (n = 0 → p = s.plane)

/-- 42_display.md R167 and R168: 00FB and 00FC move every row of the current resolution right and left by 4 pixels, zero-fill, do
not wrap, and touch no byte outside the resolution. -/
def Obligations.ScrollSidewaysMovesColumns : Prop :=
  ∀ s : State,
    HasRow .scr 0x00FB 0xFFFF ∧ HasRow .scl 0x00FC 0xFFFF ∧
    (∃ p, exec .scr s = .next { s with plane := p, pc := s.pc + 2 } ∧
      (∀ x y, x < Config.width s.ext → y < Config.height s.ext →
        getPix s.ext p x y = if x ≥ 4 then getPix s.ext s.plane (x - 4) y else false) ∧
      (∀ k, planeBytes s.ext ≤ k → p.get k = s.plane.get k)) ∧
    (∃ p, exec .scl s = .next { s with plane := p, pc := s.pc + 2 } ∧
      (∀ x y, x < Config.width s.ext → y < Config.height s.ext →
        getPix s.ext p x y = if x + 4 < Config.width s.ext then getPix s.ext s.plane (x + 4) y else false) ∧
      (∀ k, planeBytes s.ext ≤ k → p.get k = s.plane.get k))

/-- 42_display.md R165, R169 and R170: 00E0 clears all 1024 bytes in either mode; 00FE and 00FF set `EXT` and keep the plane, and
the next tick's period and the queries follow the new mode. -/
def Obligations.ClearAndModeInstructions : Prop :=
  HasRow .cls 0x00E0 0xFFFF ∧ HasRow .low 0x00FE 0xFFFF ∧ HasRow .high 0x00FF 0xFFFF ∧
  ∀ s : State,
    (∃ p, exec .cls s = .next { s with plane := p, pc := s.pc + 2 } ∧ (∀ k, k < 1024 → p.get k = 0) ∧
      ∀ x y, x < Config.width s.ext → y < Config.height s.ext → getPix s.ext p x y = false) ∧
    (∃ t, exec .low s = .next t ∧ t = { s with ext := false, pc := s.pc + 2 } ∧ getWidth t = 64 ∧
      (t.ph + 1 < 16 → (beginCycle t).ph = t.ph + 1) ∧ (t.ph + 1 ≥ 16 → (beginCycle t).ph = 0)) ∧
    (∃ t, exec .high s = .next t ∧ t = { s with ext := true, pc := s.pc + 2 } ∧ getWidth t = 128 ∧ getHeight t = 64 ∧
      (t.ph + 1 < 8 → (beginCycle t).ph = t.ph + 1) ∧ (t.ph + 1 ≥ 8 → (beginCycle t).ph = 0))

/-- 42_display.md R190 and R191, 60_exceptions.md R302: the queries are functions of the state; GetPixel has a value exactly inside
the current resolution (the refusal is the spec's decision D32). -/
def Obligations.HostQueriesReadTheState : Prop :=
  ∀ s : State,
    (∀ x y, x < Config.width s.ext → y < Config.height s.ext → getPixel s x y = some (getPix s.ext s.plane x y)) ∧
    (∀ x y, ¬ (x < Config.width s.ext ∧ y < Config.height s.ext) → getPixel s x y = none) ∧
    (s.ext = true → getWidth s = 128 ∧ getHeight s = 64) ∧ (s.ext = false → getWidth s = 64 ∧ getHeight s = 32) ∧
    isExtendedMode s = s.ext ∧ (shouldEmitTone s = true ↔ 0 < s.st.toNat)

/-! ## Register arithmetic (43_alu.md) -/

/-- 43_alu.md R201 to R206: immediate load and wrapping add, copy, OR, AND and XOR write VX alone, VF included only as X, and set no
flag. -/
def Obligations.LoadsAndLogicWriteVxOnly : Prop :=
  ∀ (s : State) (x y : Reg) (nn : Byte),
    HasRow (.ldImm x nn) 0x6000 0xF000 ∧ HasRow (.addImm x nn) 0x7000 0xF000 ∧ HasRow (.ldReg x y) 0x8000 0xF00F ∧
    HasRow (.orReg x y) 0x8001 0xF00F ∧ HasRow (.andReg x y) 0x8002 0xF00F ∧ HasRow (.xorReg x y) 0x8003 0xF00F ∧
    exec (.ldImm x nn) s = .next { s with v := s.v.set x.val nn, pc := s.pc + 2 } ∧
    exec (.addImm x nn) s = .next { s with v := s.v.set x.val (s.getV x + nn), pc := s.pc + 2 } ∧
    exec (.ldReg x y) s = .next { s with v := s.v.set x.val (s.getV y), pc := s.pc + 2 } ∧
    exec (.orReg x y) s = .next { s with v := s.v.set x.val (s.getV x ||| s.getV y), pc := s.pc + 2 } ∧
    exec (.andReg x y) s = .next { s with v := s.v.set x.val (s.getV x &&& s.getV y), pc := s.pc + 2 } ∧
    exec (.xorReg x y) s = .next { s with v := s.v.set x.val (s.getV x ^^^ s.getV y), pc := s.pc + 2 }

/-- 43_alu.md R207, R208 and R210: sum and differences modulo 256, with VF the carry out of bit 7 or not-borrow, of the operands as
they stood before; both writes in the order of VF_ORDER. -/
def Obligations.AddAndSubtractWithFlag : Prop :=
  ∀ (s : State) (x y : Reg),
    HasRow (.addReg x y) 0x8004 0xF00F ∧ HasRow (.subReg x y) 0x8005 0xF00F ∧ HasRow (.subnReg x y) 0x8007 0xF00F ∧
    exec (.addReg x y) s = .next { s with
      v := flagWrites s.params s.v x (s.getV x + s.getV y) (decide ((s.getV x).toNat + (s.getV y).toNat > 255))
      pc := s.pc + 2 } ∧
    exec (.subReg x y) s = .next { s with
      v := flagWrites s.params s.v x (s.getV x - s.getV y) (decide ((s.getV x).toNat ≥ (s.getV y).toNat))
      pc := s.pc + 2 } ∧
    exec (.subnReg x y) s = .next { s with
      v := flagWrites s.params s.v x (s.getV y - s.getV x) (decide ((s.getV y).toNat ≥ (s.getV x).toNat))
      pc := s.pc + 2 }

/-- 43_alu.md R209 and R211: logical shifts by one bit of the operand SHIFT_SOURCE names, with VF the bit shifted out. -/
def Obligations.ShiftsReportTheBitShiftedOut : Prop :=
  ∀ (s : State) (x y : Reg),
    HasRow (.shr x y) 0x8006 0xF00F ∧ HasRow (.shl x y) 0x800E 0xF00F ∧
    exec (.shr x y) s = .next { s with
      v := flagWrites s.params s.v x (shiftSrc s x y >>> 1) ((shiftSrc s x y).getLsbD 0)
      pc := s.pc + 2 } ∧
    exec (.shl x y) s = .next { s with
      v := flagWrites s.params s.v x (shiftSrc s x y <<< 1) ((shiftSrc s x y).getLsbD 7)
      pc := s.pc + 2 }

/-- 43_alu.md R200: under flag_last VF ends holding the flag, under result_last VX ends holding the result; with X not F both hold
under both orders, which then give the same registers. -/
def Obligations.WriteOrderMattersOnlyForVf : Prop :=
  ∀ (s : State) (i : Instr) (x : Reg) (res : Byte) (f : Bool), resultAndFlag s i = some (x, res, f) →
    ∃ t, exec i s = .next t ∧
      (s.params.vfOrder = .flagLast → t.getV 15 = bit f) ∧
      (s.params.vfOrder = .resultLast → t.getV x = res) ∧
      (x ≠ 15 → t.getV x = res ∧ t.getV 15 = bit f) ∧
      (x ≠ 15 → ∀ o, exec i { s with params := { s.params with vfOrder := o } } =
        .next { t with params := { s.params with vfOrder := o } })

/-- 43_alu.md R212: CXNN writes this cycle's random byte AND the immediate, for every random byte; with NN = 0 it writes 0. -/
def Obligations.RndMasksTheRandomByte : Prop :=
  ∀ (s : State) (x : Reg) (nn : Byte),
    HasRow (.rnd x nn) 0xC000 0xF000 ∧
    exec (.rnd x nn) s = .next { s with v := s.v.set x.val (s.input.rand &&& nn), pc := s.pc + 2 } ∧
    exec (.rnd x 0) s = .next { s with v := s.v.set x.val 0, pc := s.pc + 2 }

/-! ## Index register and memory transfer (44_index_memory.md) -/

/-- 44_index_memory.md R230 to R233: what ANNN, FX1E, FX29 and FX30 write to `I`; VX is never masked to a digit, no flag is set, and
`EXT` plays no part. -/
def Obligations.IndexInstructionsSetI : Prop :=
  ∀ (s : State) (nnn : BitVec 12) (x : Reg),
    HasRow (.ldI nnn) 0xA000 0xF000 ∧ HasRow (.addI x) 0xF01E 0xF0FF ∧ HasRow (.ldF x) 0xF029 0xF0FF ∧
    HasRow (.ldHF x) 0xF030 0xF0FF ∧
    exec (.ldI nnn) s = .next { s with i := nnn.setWidth 16, pc := s.pc + 2 } ∧
    exec (.addI x) s = .next { s with i := s.i + (s.getV x).setWidth 16, pc := s.pc + 2 } ∧
    exec (.ldF x) s = .next { s with i := (s.getV x).setWidth 16 * 5, pc := s.pc + 2 } ∧
    exec (.ldHF x) s = .next { s with i := 0x50 + (s.getV x).setWidth 16 * 10, pc := s.pc + 2 }

/-- 44_index_memory.md R234: FX33 halts when one of its three bytes would pass memory's end, with nothing written; otherwise the
hundreds, tens and ones of VX are at I, I + 1 and I + 2, every other byte and register unchanged. -/
def Obligations.BcdStoresDecimalDigits : Prop :=
  ∀ (s : State) (x : Reg),
    HasRow (.ldB x) 0xF033 0xF0FF ∧
    (s.i.toNat + 3 > 4096 → exec (.ldB x) s = .next { s with out := .halt .memoryOutOfBounds }) ∧
    (s.Inv → s.i.toNat + 3 ≤ 4096 →
      ∃ t, exec (.ldB x) s = .next t ∧ t = { s with mem := t.mem, pc := s.pc + 2 } ∧
        (t.readByte s.i.toNat).toNat = (s.getV x).toNat / 100 ∧
        (t.readByte (s.i.toNat + 1)).toNat = (s.getV x).toNat / 10 % 10 ∧
        (t.readByte (s.i.toNat + 2)).toNat = (s.getV x).toNat % 10 ∧
        ∀ a, a < s.i.toNat ∨ s.i.toNat + 3 ≤ a → t.readByte a = s.readByte a)

/-- 44_index_memory.md R235: FX55 halts when the last byte would pass memory's end, with nothing written; otherwise V0..VX are at
I..I + X, every other byte and every register unchanged, and `I` advances by X + 1 exactly when INC = 1. -/
def Obligations.StoreRegsWritesV0ToVx : Prop :=
  ∀ (s : State) (x : Reg),
    HasRow (.storeRegs x) 0xF055 0xF0FF ∧
    (s.i.toNat + x.val + 1 > 4096 → exec (.storeRegs x) s = .next { s with out := .halt .memoryOutOfBounds }) ∧
    (s.Inv → s.i.toNat + x.val + 1 ≤ 4096 →
      ∃ t, exec (.storeRegs x) s = .next t ∧
        t = { s with
          mem := t.mem
          i := if s.inc then s.i + BitVec.ofNat 16 (x.val + 1) else s.i
          pc := s.pc + 2 } ∧
        (∀ k : Reg, k ≤ x → t.readByte (s.i.toNat + k.val) = s.getV k) ∧
        ∀ a, a < s.i.toNat ∨ s.i.toNat + x.val + 1 ≤ a → t.readByte a = s.readByte a)

/-- 44_index_memory.md R236: FX65 halts when the last byte would pass memory's end, with nothing written; otherwise V0..VX are the
bytes at I..I + X, every other register and memory unchanged, and `I` advances by X + 1 exactly when INC = 1. -/
def Obligations.LoadRegsReadsV0ToVx : Prop :=
  ∀ (s : State) (x : Reg),
    HasRow (.loadRegs x) 0xF065 0xF0FF ∧
    (s.i.toNat + x.val + 1 > 4096 → exec (.loadRegs x) s = .next { s with out := .halt .memoryOutOfBounds }) ∧
    (s.i.toNat + x.val + 1 ≤ 4096 →
      ∃ t, exec (.loadRegs x) s = .next t ∧
        t = { s with
          v := t.v
          i := if s.inc then s.i + BitVec.ofNat 16 (x.val + 1) else s.i
          pc := s.pc + 2 } ∧
        (∀ k : Reg, k ≤ x → t.getV k = s.readByte (s.i.toNat + k.val)) ∧
        ∀ k : Reg, x < k → t.getV k = s.getV k)

/-- Bulk store and load are inverse: registers stored by FX55 and loaded by FX65 from the same index come back, whatever the other
registers held in between (44_index_memory.md R235, R236). -/
def Obligations.LoadRegsUndoesStoreRegs : Prop :=
  ∀ (s t u : State) (x : Reg), s.Inv → s.i.toNat + x.val + 1 ≤ 4096 → exec (.storeRegs x) s = .next t →
    u.mem = t.mem → u.params = t.params → u.i = s.i →
    ∃ w, exec (.loadRegs x) u = .next w ∧ ∀ k : Reg, k ≤ x → w.getV k = s.getV k

/-! ## Keys and timer registers (45_timers_keys.md) -/

/-- 45_timers_keys.md R260, R261 and R262: a key number of 16 or more halts with KEY_OUT_OF_RANGE and nothing written; otherwise EX9E
skips exactly when key VX is down in this cycle's snapshot and EXA1 exactly when it is not. The halt is the spec's decision D22. -/
def Obligations.KeySkipsTestTheSnapshot : Prop :=
  ∀ (s : State) (x : Reg),
    HasRow (.skp x) 0xE09E 0xF0FF ∧ HasRow (.sknp x) 0xE0A1 0xF0FF ∧
    ((s.getV x).toNat ≥ 16 →
      exec (.skp x) s = .next { s with out := .halt .keyOutOfRange } ∧
      exec (.sknp x) s = .next { s with out := .halt .keyOutOfRange }) ∧
    ((s.getV x).toNat < 16 →
      exec (.skp x) s = .next { s with
        pc := if s.input.keys.getLsbD (s.getV x).toNat then s.pc + 4 else s.pc + 2 } ∧
      exec (.sknp x) s = .next { s with
        pc := if s.input.keys.getLsbD (s.getV x).toNat then s.pc + 2 else s.pc + 4 })

/-- 45_timers_keys.md R263: with no key down FX0A leaves the whole state, so the cycle has ticked and the next one runs it again;
with a key down it advances, and writes the smallest pressed key to VX exactly when FX0A_WRITES_KEY. -/
def Obligations.WaitForKeyPollsTheSnapshot : Prop :=
  ∀ (s : State) (x : Reg),
    HasRow (.ldVxK x) 0xF00A 0xF0FF ∧
    (s.input.keys = 0 → exec (.ldVxK x) s = .next s) ∧
    (∀ k, k < 16 → s.input.keys.getLsbD k = true → (∀ j, j < k → s.input.keys.getLsbD j = false) →
      exec (.ldVxK x) s = .next { s with
        v := if s.params.fx0aWritesKey then s.v.set x.val (BitVec.ofNat 8 k) else s.v
        pc := s.pc + 2 }) ∧
    (cycleInstr s = some (.ldVxK x) → (sampleInputs s).input.keys = 0 →
      step s = .next (beginCycle s) ∧ cycleInstr (beginCycle s) = some (.ldVxK x))

/-- 45_timers_keys.md R264, R265 and R266: FX07 reads `DT` after this cycle's tick; FX15 and FX18 write the timers after the tick,
leave `PH`, and the tone follows `ST`. The last clause (in a step FX15's value is not decremented, and `PH` is the tick's) is an
inference the spec marks as derived from 60_exceptions.md R290. -/
def Obligations.TimerRegistersMove : Prop :=
  ∀ (s : State) (x : Reg),
    HasRow (.ldVxDt x) 0xF007 0xF0FF ∧ HasRow (.ldDtVx x) 0xF015 0xF0FF ∧ HasRow (.ldStVx x) 0xF018 0xF0FF ∧
    exec (.ldVxDt x) s = .next { s with v := s.v.set x.val s.dt, pc := s.pc + 2 } ∧
    exec (.ldDtVx x) s = .next { s with dt := s.getV x, pc := s.pc + 2 } ∧
    (∃ t, exec (.ldStVx x) s = .next t ∧ t = { s with st := s.getV x, pc := s.pc + 2 } ∧
      (shouldEmitTone t = true ↔ s.getV x ≠ 0)) ∧
    (cycleInstr s = some (.ldVxDt x) → ∃ t, step s = .next t ∧ t.getV x = (timerTick s).dt) ∧
    (cycleInstr s = some (.ldDtVx x) → ∃ t, step s = .next t ∧ t.dt = s.getV x ∧ t.ph = (timerTick s).ph)

/-! ## Reset, loading and legal states (70_reset_and_hazards.md) -/

/-- 70_reset_and_hazards.md R320: Construct leaves memory zero but for GLYPH_IMAGE at 0x000..0x0EF and every other element 0;
`State.reset` is Construct with the parameters of the model (log entries 4 and 5). -/
def Obligations.ConstructZeroesAllButGlyphs : Prop :=
  (∃ p, State.reset = State.constructed p) ∧
  ∀ p : Params,
    (∀ a, a < 4096 → (State.constructed p).readByte a = if a < 0x0F0 then p.glyphImage.get a else 0) ∧
    (∀ x, (State.constructed p).getV x = 0) ∧ (State.constructed p).i = 0 ∧ (State.constructed p).pc = 0 ∧
    (State.constructed p).sp = 0 ∧ (∀ k, k < 1024 → (State.constructed p).plane.get k = 0) ∧
    (State.constructed p).dt = 0 ∧ (State.constructed p).st = 0 ∧ (State.constructed p).ph = 0 ∧
    (State.constructed p).inc = false ∧ (State.constructed p).ext = false ∧ (State.constructed p).plen = 0 ∧
    (State.constructed p).params = p

/-- 70_reset_and_hazards.md R322 and R323: a program of fewer than 0xCA0 bytes loads: every element is as after Construct, but the
bytes stand at 0x200, `PC` is 0x200 and `PLEN` the length; an empty program's first Advance halts with END_OF_PROGRAM. A longer
program returns PROGRAM_TOO_LARGE and changes no state at all. -/
def Obligations.LoadProgramResetsAndCopies : Prop :=
  ∀ (s : State) (bytes : List Byte),
  (0x200 + bytes.length ≥ 0xEA0 → loadProgram bytes s = (.programTooLarge, s)) ∧
  (0x200 + bytes.length < 0xEA0 →
    ∃ t, loadProgram bytes s = (.ok, t) ∧
      (∀ a, a < 4096 → t.readByte a =
        if a < 0x0F0 then s.params.glyphImage.get a
        else if 0x200 ≤ a ∧ a < 0x200 + bytes.length then bytes.getD (a - 0x200) 0 else 0) ∧
      (∀ x, t.getV x = 0) ∧ t.i = 0 ∧ t.pc = 0x200 ∧ t.sp = 0 ∧ (∀ k, k < 1024 → t.plane.get k = 0) ∧
      t.dt = 0 ∧ t.st = 0 ∧ t.ph = 0 ∧ t.inc = false ∧ t.ext = false ∧ t.plen.toNat = bytes.length ∧
      t.params = s.params ∧
      (bytes = [] → ∃ u, step t = .next u ∧ u.out = .halt .endOfProgram))

/-- An inference the spec marks as derived from R111 and R37 (40_cycle.md R121): an Advance after Construct and before any load passes the end-of-program check at PC = 0 and runs the first
two glyph bytes as an opcode, whatever GLYPH_IMAGE is. -/
def Obligations.AdvanceBeforeLoadRunsGlyphs : Prop :=
  ∀ p : Params,
    step (State.constructed p) =
      match decodeOpcode (p.glyphImage.get 0 ++ p.glyphImage.get 1) with
      | none => .next { beginCycle (State.constructed p) with out := .halt .unknownOpcode }
      | some i => exec i (beginCycle (State.constructed p))

/-- 60_exceptions.md R281: the numeric codes of the statuses, the halt reasons and the load results. -/
def Obligations.PortCodes : Prop :=
  Status.code .cont = 0 ∧ Status.code .exitRequest = 1 ∧ (∀ r, Status.code (.halt r) = 2) ∧
  HaltReason.code .endOfProgram = 1 ∧ HaltReason.code .unknownOpcode = 2 ∧ HaltReason.code .memoryOutOfBounds = 3 ∧
  HaltReason.code .stackOverflow = 4 ∧ HaltReason.code .stackUnderflow = 5 ∧ HaltReason.code .keyOutOfRange = 6 ∧
  LoadResult.code .ok = 0 ∧ LoadResult.code .programTooLarge = 1 ∧
  (∀ o : Status, o.reasonCode.isSome = true ↔ o.code = 2)

/-- The legal states hold at reset, for all parameters, and after every load from a legal state (10_state.md R27, R30, R33, R37). -/
def Obligations.ResetAndLoadGiveLegalStates : Prop :=
  State.reset.Inv ∧ (∀ p : Params, (State.constructed p).Inv) ∧
  ∀ (s : State) (bytes : List Byte), s.Inv → (loadProgram bytes s).2.Inv

/-- Every legal state has a legal successor: no step from one faults or refuses, and memory stays canonical, SP within 0..175, PH
within 0..15 and PLEN within 0..3231 (10_state.md R27, R30, R33, R36; 20_memory.md R62). -/
def Obligations.StepKeepsStatesLegal : Prop :=
  ∀ s : State, s.Inv → ∃ t, step s = .next t ∧ t.Inv

/-- THE MODEL'S CHOICE (log entries 8 and 9): a step stops only in a state no run reaches, with a fetch past memory's end or a stack
entry past it, and it stops there under the fault's own name; it never refuses. -/
def Obligations.StopsOnlyOutsideMemory : Prop :=
  ∀ s : State,
    (step s = .fault .fetchOutsideMemory ↔ s.pc.toNat < 0x200 + s.plen.toNat ∧ 4096 ≤ s.pc.toNat + 1) ∧
    (step s = .fault .stackEntryOutsideMemory ↔
      s.sp.toNat > 175 ∧ (cycleInstr s = some .ret ∨ ∃ nnn, cycleInstr s = some (.call nnn))) ∧
    (∀ r, step s ≠ .refused r)
end

