-- ==== Sys2Proof/Laws/Bytes.lean ====
section
/-! SUPPORT. The laws of byte arrays: reading after a write, a build and a fill, and equality by entries. -/

namespace Sys2Proof

variable {n : Nat}

@[simp] theorem Bytes.get_set_self (b : Bytes n) (k : Nat) (v : Byte) (h : k < n) : (b.set k v).get k = v := by
  simp [Bytes.get, Bytes.set, b.length_eq, h]

@[simp] theorem Bytes.get_set_ne (b : Bytes n) {j k : Nat} (v : Byte) (h : j ≠ k) : (b.set k v).get j = b.get j := by
  simp [Bytes.get, Bytes.set, List.getElem?_set_ne (Ne.symm h)]

theorem Bytes.get_set (b : Bytes n) (j k : Nat) (v : Byte) (h : k < n) :
    (b.set k v).get j = if j = k then v else b.get j := by
  split
  · next e => subst e; exact b.get_set_self j v h
  · next e => exact b.get_set_ne v e

@[simp] theorem Bytes.get_build (f : Nat → Byte) {k : Nat} (h : k < n) : (Bytes.build n f).get k = f k := by
  simp [Bytes.get, Bytes.build, h]

@[simp] theorem Bytes.get_zeros (k : Nat) : (Bytes.zeros n).get k = 0 := by
  by_cases h : k < n <;> simp [Bytes.get, Bytes.zeros, h]

/-- Two arrays of one length with equal entries are equal. -/
theorem Bytes.ext_get {a b : Bytes n} (h : ∀ k, k < n → a.get k = b.get k) : a = b := by
  obtain ⟨as, ha⟩ := a
  obtain ⟨bs, hb⟩ := b
  have : as = bs := by
    apply List.ext_getElem (ha.trans hb.symm)
    intro k h1 h2
    have hk := h k (by omega)
    simpa [Bytes.get, List.getD_eq_getElem?_getD, h1, h2] using hk
  subst this
  rfl

@[simp] theorem Bytes.set_set (b : Bytes n) (k : Nat) (v w : Byte) : (b.set k v).set k w = b.set k w := by
  simp [Bytes.set]

theorem Bytes.set_comm (b : Bytes n) {j k : Nat} (v w : Byte) (h : j ≠ k) :
    (b.set j v).set k w = (b.set k w).set j v := by
  simp [Bytes.set, List.set_comm v w h]

end Sys2Proof
end

