-- ==== Sys2Proof/Laws/Memory.lean ====
section
/-! SUPPORT. The laws of memory: a read after a write, the canonical form and that every operation keeps it, and that memories
in canonical form that read alike are equal. -/

namespace Sys2Proof.Machine

variable {base : Nat → Byte}

theorem Memory.wf_nil : Memory.wf base [] := ⟨List.Pairwise.nil, by simp⟩

theorem Memory.wf_tail {c : Host.Cell} {m : Memory} (h : Memory.wf base (c :: m)) : Memory.wf base m :=
  ⟨(List.pairwise_cons.mp h.1).2, fun d hd => h.2 d (List.mem_cons_of_mem _ hd)⟩

theorem Memory.wf_cons {c : Host.Cell} {m : Memory} (hm : Memory.wf base m) (hlt : ∀ d ∈ m, c.1 < d.1)
    (hc : c.1 < Config.memSize ∧ c.2 ≠ base c.1) : Memory.wf base (c :: m) :=
  ⟨List.pairwise_cons.mpr ⟨hlt, hm.1⟩, by
    intro d hd
    rcases List.mem_cons.mp hd with rfl | hd
    · exact hc
    · exact hm.2 d hd⟩

/-- An address below every listed one reads as unlisted. -/
theorem memRead_of_lt {m : Memory} {a : Nat} (h : ∀ c ∈ m, a < c.1) : memRead base m a = base a := by
  induction m with
  | nil => rfl
  | cons c m ih =>
    have hc := h c (List.mem_cons_self ..)
    simp only [memRead]
    rw [if_neg (by omega), ih fun d hd => h d (List.mem_cons_of_mem _ hd)]

/-- A write leaves every other address as it reads. -/
theorem memRead_memWrite_ne (m : Memory) {a b : Nat} (v : Byte) (h : b ≠ a) :
    memRead base (memWrite base m a v) b = memRead base m b := by
  induction m with
  | nil => simp only [memWrite]; split <;> simp [memRead, h]
  | cons c m ih =>
    obtain ⟨d, w⟩ := c
    by_cases hd : d = b
    · subst hd
      simp only [memWrite]
      split
      · split <;> simp [memRead, h]
      · rw [if_neg (Ne.symm h)]; simp [memRead]
    · simp only [memWrite]
      split
      · split <;> simp [memRead, h]
      · split
        · next hda => split <;> simp [memRead, h, Ne.symm hd]
        · simp [memRead, ih]

/-- A read of the byte just written gives it. -/
theorem memRead_memWrite_self {m : Memory} (hm : Memory.wf base m) (a : Nat) (v : Byte) :
    memRead base (memWrite base m a v) a = v := by
  induction m with
  | nil => simp only [memWrite]; split <;> simp_all [memRead]
  | cons c m ih =>
    obtain ⟨d, w⟩ := c
    have hlt := (List.pairwise_cons.mp hm.1).1
    simp only [memWrite]
    split
    · next hd =>
      split
      · next hv =>
        rw [memRead_of_lt (m := (d, w) :: m), hv]
        intro e he
        rcases List.mem_cons.mp he with rfl | he
        · exact hd
        · exact Nat.lt_trans hd (hlt e he)
      · simp [memRead]
    · split
      · next hda =>
        subst hda
        split
        · next hv => rw [memRead_of_lt hlt, hv]
        · simp [memRead]
      · next h1 h2 => simp only [memRead]; rw [if_neg h2, ih (Memory.wf_tail hm)]

theorem memRead_memWrite {m : Memory} (hm : Memory.wf base m) (a b : Nat) (v : Byte) :
    memRead base (memWrite base m a v) b = if b = a then v else memRead base m b := by
  split
  · next h => subst h; exact memRead_memWrite_self hm _ v
  · next h => exact memRead_memWrite_ne m v h

/-- The cells of a memory after a write: those it had, and the written one. -/
theorem mem_memWrite {m : Memory} {a : Nat} {v : Byte} {c : Host.Cell} (h : c ∈ memWrite base m a v) :
    c ∈ m ∨ (c = (a, v) ∧ v ≠ base a) := by
  induction m with
  | nil => simp only [memWrite] at h; split at h <;> simp_all
  | cons d m ih =>
    obtain ⟨e, w⟩ := d
    simp only [memWrite] at h
    split at h
    · split at h
      · exact .inl h
      · rcases List.mem_cons.mp h with rfl | h
        · exact .inr ⟨rfl, by assumption⟩
        · exact .inl h
    · split at h
      · split at h
        · exact .inl (List.mem_cons_of_mem _ h)
        · rcases List.mem_cons.mp h with rfl | h
          · exact .inr ⟨rfl, by assumption⟩
          · exact .inl (List.mem_cons_of_mem _ h)
      · rcases List.mem_cons.mp h with rfl | h
        · exact .inl (List.mem_cons_self ..)
        · rcases ih h with h | h
          · exact .inl (List.mem_cons_of_mem _ h)
          · exact .inr h

/-- A write inside memory keeps the canonical form. -/
theorem Memory.wf_memWrite {m : Memory} (hm : Memory.wf base m) {a : Nat} (ha : a < Config.memSize) (v : Byte) :
    Memory.wf base (memWrite base m a v) := by
  induction m with
  | nil =>
    simp only [memWrite]
    split
    · exact hm
    · next hv => exact Memory.wf_cons hm (by simp) ⟨ha, hv⟩
  | cons c m ih =>
    obtain ⟨d, w⟩ := c
    have hlt := (List.pairwise_cons.mp hm.1).1
    have hc := hm.2 (d, w) (List.mem_cons_self ..)
    simp only [memWrite]
    split
    · next hd =>
      split
      · exact hm
      · next hv =>
        refine Memory.wf_cons hm ?_ ⟨ha, hv⟩
        intro e he
        rcases List.mem_cons.mp he with rfl | he
        · exact hd
        · exact Nat.lt_trans hd (hlt e he)
    · split
      · next hda =>
        subst hda
        split
        · exact Memory.wf_tail hm
        · next hv => exact Memory.wf_cons (Memory.wf_tail hm) hlt ⟨ha, hv⟩
      · next h1 h2 =>
        refine Memory.wf_cons (ih (Memory.wf_tail hm)) ?_ hc
        intro e he
        rcases mem_memWrite he with he | ⟨rfl, -⟩
        · exact hlt e he
        · exact Nat.lt_of_le_of_ne (Nat.not_lt.mp h1) (Ne.symm h2)

/-- Consecutive writes inside memory keep the canonical form. -/
theorem Memory.wf_memWriteList {m : Memory} (hm : Memory.wf base m) {a : Nat} {vs : List Byte}
    (ha : a + vs.length ≤ Config.memSize) : Memory.wf base (memWriteList base m a vs) := by
  induction vs generalizing m a with
  | nil => exact hm
  | cons v vs ih =>
    simp only [List.length_cons] at ha
    exact ih (Memory.wf_memWrite hm (by omega) v) (by omega)

/-- Consecutive writes leave every address outside them as it reads. -/
theorem memRead_memWriteList_out (m : Memory) {a b : Nat} (vs : List Byte) (h : b < a ∨ a + vs.length ≤ b) :
    memRead base (memWriteList base m a vs) b = memRead base m b := by
  induction vs generalizing m a with
  | nil => rfl
  | cons v vs ih =>
    simp only [List.length_cons] at h
    simp only [memWriteList]
    rw [ih _ (by omega), memRead_memWrite_ne _ _ (by omega)]

/-- After consecutive writes inside memory, each address among them reads as its byte. -/
theorem memRead_memWriteList_in {m : Memory} (hm : Memory.wf base m) {a k : Nat} {vs : List Byte}
    (ha : a + vs.length ≤ Config.memSize) (hk : k < vs.length) :
    memRead base (memWriteList base m a vs) (a + k) = vs[k] := by
  induction vs generalizing m a k with
  | nil => simp at hk
  | cons v vs ih =>
    simp only [List.length_cons] at ha hk
    simp only [memWriteList]
    cases k with
    | zero =>
      rw [memRead_memWriteList_out _ _ (.inl (by omega)), Nat.add_zero, memRead_memWrite_self hm]
      rfl
    | succ k =>
      have := ih (m := memWrite base m a v) (a := a + 1) (k := k) (Memory.wf_memWrite hm (by omega) v) (by omega) (by omega)
      rw [Nat.add_right_comm] at this
      rw [← Nat.add_assoc, this]
      rfl

/-- A listed cell is what its address reads as. -/
theorem memRead_of_mem {m : Memory} (hm : Memory.wf base m) {c : Host.Cell} (hc : c ∈ m) : memRead base m c.1 = c.2 := by
  induction m with
  | nil => simp at hc
  | cons d m ih =>
    have hlt := (List.pairwise_cons.mp hm.1).1
    rcases List.mem_cons.mp hc with rfl | hc
    · simp [memRead]
    · have := hlt c hc
      simp only [memRead]
      rw [if_neg (by omega), ih (Memory.wf_tail hm) hc]

/-- Equal memories are equal data: two canonical memories that read alike everywhere are equal. -/
theorem Memory.ext_read {m m' : Memory} (hm : Memory.wf base m) (hm' : Memory.wf base m')
    (h : ∀ a, memRead base m a = memRead base m' a) : m = m' := by
  induction m generalizing m' with
  | nil =>
    cases m' with
    | nil => rfl
    | cons c m' =>
      have := h c.1
      rw [memRead_of_mem hm' (List.mem_cons_self ..)] at this
      exact absurd this.symm (hm'.2 c (List.mem_cons_self ..)).2
  | cons c m ih =>
    have hlt := (List.pairwise_cons.mp hm.1).1
    have hc := hm.2 c (List.mem_cons_self ..)
    cases m' with
    | nil =>
      have := h c.1
      rw [memRead_of_mem hm (List.mem_cons_self ..)] at this
      exact absurd this hc.2
    | cons d m' =>
      have hlt' := (List.pairwise_cons.mp hm'.1).1
      have hd := hm'.2 d (List.mem_cons_self ..)
      have hcd : c.1 = d.1 := by
        rcases Nat.lt_trichotomy c.1 d.1 with hl | he | hg
        · have := h c.1
          rw [memRead_of_mem hm (List.mem_cons_self ..), memRead_of_lt] at this
          · exact absurd this hc.2
          · intro e he
            rcases List.mem_cons.mp he with rfl | he
            · exact hl
            · exact Nat.lt_trans hl (hlt' e he)
        · exact he
        · have := h d.1
          rw [memRead_of_mem hm' (List.mem_cons_self ..), memRead_of_lt] at this
          · exact absurd this.symm hd.2
          · intro e he
            rcases List.mem_cons.mp he with rfl | he
            · exact hg
            · exact Nat.lt_trans hg (hlt e he)
      have hval : c.2 = d.2 := by
        have := h c.1
        rw [memRead_of_mem hm (List.mem_cons_self ..), hcd, memRead_of_mem hm' (List.mem_cons_self ..)] at this
        exact this
      have hcell : c = d := Prod.ext hcd hval
      subst hcell
      congr 1
      refine ih (Memory.wf_tail hm) (Memory.wf_tail hm') fun a => ?_
      have ha := h a
      obtain ⟨b, w⟩ := c
      by_cases hab : a = b
      · subst hab
        rw [memRead_of_lt hlt, memRead_of_lt hlt']
      · simpa [memRead, hab] using ha

end Sys2Proof.Machine
end

