-- ==== Sys2Proof/Laws/State.lean ====
section
/-! SUPPORT. The small laws of State: one lemma per field per update, and the accessors after each update. -/

namespace Sys2Proof.Machine

variable (s : State)

/-! ### setV -/

@[simp] theorem State.setV_mem (x : Reg) (b : Byte) : (s.setV x b).mem = s.mem := rfl
@[simp] theorem State.setV_v (x : Reg) (b : Byte) : (s.setV x b).v = s.v.set x.val b := rfl
@[simp] theorem State.setV_i (x : Reg) (b : Byte) : (s.setV x b).i = s.i := rfl
@[simp] theorem State.setV_pc (x : Reg) (b : Byte) : (s.setV x b).pc = s.pc := rfl
@[simp] theorem State.setV_sp (x : Reg) (b : Byte) : (s.setV x b).sp = s.sp := rfl
@[simp] theorem State.setV_plane (x : Reg) (b : Byte) : (s.setV x b).plane = s.plane := rfl
@[simp] theorem State.setV_dt (x : Reg) (b : Byte) : (s.setV x b).dt = s.dt := rfl
@[simp] theorem State.setV_st (x : Reg) (b : Byte) : (s.setV x b).st = s.st := rfl
@[simp] theorem State.setV_ph (x : Reg) (b : Byte) : (s.setV x b).ph = s.ph := rfl
@[simp] theorem State.setV_inc (x : Reg) (b : Byte) : (s.setV x b).inc = s.inc := rfl
@[simp] theorem State.setV_ext (x : Reg) (b : Byte) : (s.setV x b).ext = s.ext := rfl
@[simp] theorem State.setV_plen (x : Reg) (b : Byte) : (s.setV x b).plen = s.plen := rfl
@[simp] theorem State.setV_out (x : Reg) (b : Byte) : (s.setV x b).out = s.out := rfl
@[simp] theorem State.setV_input (x : Reg) (b : Byte) : (s.setV x b).input = s.input := rfl
@[simp] theorem State.setV_pending (x : Reg) (b : Byte) : (s.setV x b).pending = s.pending := rfl
@[simp] theorem State.setV_draws (x : Reg) (b : Byte) : (s.setV x b).draws = s.draws := rfl
@[simp] theorem State.setV_params (x : Reg) (b : Byte) : (s.setV x b).params = s.params := rfl
@[simp] theorem State.setV_readByte (x : Reg) (b : Byte) (c : Nat) : (s.setV x b).readByte c = s.readByte c := rfl

/-! ### setI -/

@[simp] theorem State.setI_mem (n : Nat) : (s.setI n).mem = s.mem := rfl
@[simp] theorem State.setI_v (n : Nat) : (s.setI n).v = s.v := rfl
@[simp] theorem State.setI_i (n : Nat) : (s.setI n).i = BitVec.ofNat 16 n := rfl
@[simp] theorem State.setI_pc (n : Nat) : (s.setI n).pc = s.pc := rfl
@[simp] theorem State.setI_sp (n : Nat) : (s.setI n).sp = s.sp := rfl
@[simp] theorem State.setI_plane (n : Nat) : (s.setI n).plane = s.plane := rfl
@[simp] theorem State.setI_dt (n : Nat) : (s.setI n).dt = s.dt := rfl
@[simp] theorem State.setI_st (n : Nat) : (s.setI n).st = s.st := rfl
@[simp] theorem State.setI_ph (n : Nat) : (s.setI n).ph = s.ph := rfl
@[simp] theorem State.setI_inc (n : Nat) : (s.setI n).inc = s.inc := rfl
@[simp] theorem State.setI_ext (n : Nat) : (s.setI n).ext = s.ext := rfl
@[simp] theorem State.setI_plen (n : Nat) : (s.setI n).plen = s.plen := rfl
@[simp] theorem State.setI_out (n : Nat) : (s.setI n).out = s.out := rfl
@[simp] theorem State.setI_input (n : Nat) : (s.setI n).input = s.input := rfl
@[simp] theorem State.setI_pending (n : Nat) : (s.setI n).pending = s.pending := rfl
@[simp] theorem State.setI_draws (n : Nat) : (s.setI n).draws = s.draws := rfl
@[simp] theorem State.setI_params (n : Nat) : (s.setI n).params = s.params := rfl
@[simp] theorem State.setI_getV (n : Nat) (y : Reg) : (s.setI n).getV y = s.getV y := rfl
@[simp] theorem State.setI_readByte (n : Nat) (c : Nat) : (s.setI n).readByte c = s.readByte c := rfl

/-! ### setPc -/

@[simp] theorem State.setPc_mem (n : Nat) : (s.setPc n).mem = s.mem := rfl
@[simp] theorem State.setPc_v (n : Nat) : (s.setPc n).v = s.v := rfl
@[simp] theorem State.setPc_i (n : Nat) : (s.setPc n).i = s.i := rfl
@[simp] theorem State.setPc_pc (n : Nat) : (s.setPc n).pc = BitVec.ofNat 16 n := rfl
@[simp] theorem State.setPc_sp (n : Nat) : (s.setPc n).sp = s.sp := rfl
@[simp] theorem State.setPc_plane (n : Nat) : (s.setPc n).plane = s.plane := rfl
@[simp] theorem State.setPc_dt (n : Nat) : (s.setPc n).dt = s.dt := rfl
@[simp] theorem State.setPc_st (n : Nat) : (s.setPc n).st = s.st := rfl
@[simp] theorem State.setPc_ph (n : Nat) : (s.setPc n).ph = s.ph := rfl
@[simp] theorem State.setPc_inc (n : Nat) : (s.setPc n).inc = s.inc := rfl
@[simp] theorem State.setPc_ext (n : Nat) : (s.setPc n).ext = s.ext := rfl
@[simp] theorem State.setPc_plen (n : Nat) : (s.setPc n).plen = s.plen := rfl
@[simp] theorem State.setPc_out (n : Nat) : (s.setPc n).out = s.out := rfl
@[simp] theorem State.setPc_input (n : Nat) : (s.setPc n).input = s.input := rfl
@[simp] theorem State.setPc_pending (n : Nat) : (s.setPc n).pending = s.pending := rfl
@[simp] theorem State.setPc_draws (n : Nat) : (s.setPc n).draws = s.draws := rfl
@[simp] theorem State.setPc_params (n : Nat) : (s.setPc n).params = s.params := rfl
@[simp] theorem State.setPc_getV (n : Nat) (y : Reg) : (s.setPc n).getV y = s.getV y := rfl
@[simp] theorem State.setPc_readByte (n : Nat) (c : Nat) : (s.setPc n).readByte c = s.readByte c := rfl

/-! ### advance -/

@[simp] theorem State.advance_mem (n : Nat) : (s.advance n).mem = s.mem := rfl
@[simp] theorem State.advance_v (n : Nat) : (s.advance n).v = s.v := rfl
@[simp] theorem State.advance_i (n : Nat) : (s.advance n).i = s.i := rfl
@[simp] theorem State.advance_pc (n : Nat) : (s.advance n).pc = BitVec.ofNat 16 (s.pc.toNat + n) := rfl
@[simp] theorem State.advance_sp (n : Nat) : (s.advance n).sp = s.sp := rfl
@[simp] theorem State.advance_plane (n : Nat) : (s.advance n).plane = s.plane := rfl
@[simp] theorem State.advance_dt (n : Nat) : (s.advance n).dt = s.dt := rfl
@[simp] theorem State.advance_st (n : Nat) : (s.advance n).st = s.st := rfl
@[simp] theorem State.advance_ph (n : Nat) : (s.advance n).ph = s.ph := rfl
@[simp] theorem State.advance_inc (n : Nat) : (s.advance n).inc = s.inc := rfl
@[simp] theorem State.advance_ext (n : Nat) : (s.advance n).ext = s.ext := rfl
@[simp] theorem State.advance_plen (n : Nat) : (s.advance n).plen = s.plen := rfl
@[simp] theorem State.advance_out (n : Nat) : (s.advance n).out = s.out := rfl
@[simp] theorem State.advance_input (n : Nat) : (s.advance n).input = s.input := rfl
@[simp] theorem State.advance_pending (n : Nat) : (s.advance n).pending = s.pending := rfl
@[simp] theorem State.advance_draws (n : Nat) : (s.advance n).draws = s.draws := rfl
@[simp] theorem State.advance_params (n : Nat) : (s.advance n).params = s.params := rfl
@[simp] theorem State.advance_getV (n : Nat) (y : Reg) : (s.advance n).getV y = s.getV y := rfl
@[simp] theorem State.advance_readByte (n : Nat) (c : Nat) : (s.advance n).readByte c = s.readByte c := rfl

/-- The pc advances modulo 65536. -/
theorem State.advance_eq (n : Nat) : s.advance n = { s with pc := s.pc + BitVec.ofNat 16 n } := by
  unfold State.advance State.setPc
  congr 1
  apply BitVec.eq_of_toNat_eq
  simp

/-! ### skipIf -/

@[simp] theorem State.skipIf_mem (c : Bool) : (s.skipIf c).mem = s.mem := rfl
@[simp] theorem State.skipIf_v (c : Bool) : (s.skipIf c).v = s.v := rfl
@[simp] theorem State.skipIf_i (c : Bool) : (s.skipIf c).i = s.i := rfl
@[simp] theorem State.skipIf_pc (c : Bool) : (s.skipIf c).pc = BitVec.ofNat 16 (s.pc.toNat + if c then 4 else 2) := rfl
@[simp] theorem State.skipIf_sp (c : Bool) : (s.skipIf c).sp = s.sp := rfl
@[simp] theorem State.skipIf_plane (c : Bool) : (s.skipIf c).plane = s.plane := rfl
@[simp] theorem State.skipIf_dt (c : Bool) : (s.skipIf c).dt = s.dt := rfl
@[simp] theorem State.skipIf_st (c : Bool) : (s.skipIf c).st = s.st := rfl
@[simp] theorem State.skipIf_ph (c : Bool) : (s.skipIf c).ph = s.ph := rfl
@[simp] theorem State.skipIf_inc (c : Bool) : (s.skipIf c).inc = s.inc := rfl
@[simp] theorem State.skipIf_ext (c : Bool) : (s.skipIf c).ext = s.ext := rfl
@[simp] theorem State.skipIf_plen (c : Bool) : (s.skipIf c).plen = s.plen := rfl
@[simp] theorem State.skipIf_out (c : Bool) : (s.skipIf c).out = s.out := rfl
@[simp] theorem State.skipIf_input (c : Bool) : (s.skipIf c).input = s.input := rfl
@[simp] theorem State.skipIf_pending (c : Bool) : (s.skipIf c).pending = s.pending := rfl
@[simp] theorem State.skipIf_draws (c : Bool) : (s.skipIf c).draws = s.draws := rfl
@[simp] theorem State.skipIf_params (c : Bool) : (s.skipIf c).params = s.params := rfl
@[simp] theorem State.skipIf_getV (c : Bool) (y : Reg) : (s.skipIf c).getV y = s.getV y := rfl
@[simp] theorem State.skipIf_readByte (c : Bool) (a : Nat) : (s.skipIf c).readByte a = s.readByte a := rfl

/-! ### writeByte -/

@[simp] theorem State.writeByte_mem (a : Nat) (b : Byte) : (s.writeByte a b).mem = memWrite (resetByte s.params) s.mem a b := rfl
@[simp] theorem State.writeByte_v (a : Nat) (b : Byte) : (s.writeByte a b).v = s.v := rfl
@[simp] theorem State.writeByte_i (a : Nat) (b : Byte) : (s.writeByte a b).i = s.i := rfl
@[simp] theorem State.writeByte_pc (a : Nat) (b : Byte) : (s.writeByte a b).pc = s.pc := rfl
@[simp] theorem State.writeByte_sp (a : Nat) (b : Byte) : (s.writeByte a b).sp = s.sp := rfl
@[simp] theorem State.writeByte_plane (a : Nat) (b : Byte) : (s.writeByte a b).plane = s.plane := rfl
@[simp] theorem State.writeByte_dt (a : Nat) (b : Byte) : (s.writeByte a b).dt = s.dt := rfl
@[simp] theorem State.writeByte_st (a : Nat) (b : Byte) : (s.writeByte a b).st = s.st := rfl
@[simp] theorem State.writeByte_ph (a : Nat) (b : Byte) : (s.writeByte a b).ph = s.ph := rfl
@[simp] theorem State.writeByte_inc (a : Nat) (b : Byte) : (s.writeByte a b).inc = s.inc := rfl
@[simp] theorem State.writeByte_ext (a : Nat) (b : Byte) : (s.writeByte a b).ext = s.ext := rfl
@[simp] theorem State.writeByte_plen (a : Nat) (b : Byte) : (s.writeByte a b).plen = s.plen := rfl
@[simp] theorem State.writeByte_out (a : Nat) (b : Byte) : (s.writeByte a b).out = s.out := rfl
@[simp] theorem State.writeByte_input (a : Nat) (b : Byte) : (s.writeByte a b).input = s.input := rfl
@[simp] theorem State.writeByte_pending (a : Nat) (b : Byte) : (s.writeByte a b).pending = s.pending := rfl
@[simp] theorem State.writeByte_draws (a : Nat) (b : Byte) : (s.writeByte a b).draws = s.draws := rfl
@[simp] theorem State.writeByte_params (a : Nat) (b : Byte) : (s.writeByte a b).params = s.params := rfl
@[simp] theorem State.writeByte_getV (a : Nat) (b : Byte) (y : Reg) : (s.writeByte a b).getV y = s.getV y := rfl

/-! ### writeBytes -/

@[simp] theorem State.writeBytes_mem (a : Nat) (bs : List Byte) : (s.writeBytes a bs).mem = memWriteList (resetByte s.params) s.mem a bs := rfl
@[simp] theorem State.writeBytes_v (a : Nat) (bs : List Byte) : (s.writeBytes a bs).v = s.v := rfl
@[simp] theorem State.writeBytes_i (a : Nat) (bs : List Byte) : (s.writeBytes a bs).i = s.i := rfl
@[simp] theorem State.writeBytes_pc (a : Nat) (bs : List Byte) : (s.writeBytes a bs).pc = s.pc := rfl
@[simp] theorem State.writeBytes_sp (a : Nat) (bs : List Byte) : (s.writeBytes a bs).sp = s.sp := rfl
@[simp] theorem State.writeBytes_plane (a : Nat) (bs : List Byte) : (s.writeBytes a bs).plane = s.plane := rfl
@[simp] theorem State.writeBytes_dt (a : Nat) (bs : List Byte) : (s.writeBytes a bs).dt = s.dt := rfl
@[simp] theorem State.writeBytes_st (a : Nat) (bs : List Byte) : (s.writeBytes a bs).st = s.st := rfl
@[simp] theorem State.writeBytes_ph (a : Nat) (bs : List Byte) : (s.writeBytes a bs).ph = s.ph := rfl
@[simp] theorem State.writeBytes_inc (a : Nat) (bs : List Byte) : (s.writeBytes a bs).inc = s.inc := rfl
@[simp] theorem State.writeBytes_ext (a : Nat) (bs : List Byte) : (s.writeBytes a bs).ext = s.ext := rfl
@[simp] theorem State.writeBytes_plen (a : Nat) (bs : List Byte) : (s.writeBytes a bs).plen = s.plen := rfl
@[simp] theorem State.writeBytes_out (a : Nat) (bs : List Byte) : (s.writeBytes a bs).out = s.out := rfl
@[simp] theorem State.writeBytes_input (a : Nat) (bs : List Byte) : (s.writeBytes a bs).input = s.input := rfl
@[simp] theorem State.writeBytes_pending (a : Nat) (bs : List Byte) : (s.writeBytes a bs).pending = s.pending := rfl
@[simp] theorem State.writeBytes_draws (a : Nat) (bs : List Byte) : (s.writeBytes a bs).draws = s.draws := rfl
@[simp] theorem State.writeBytes_params (a : Nat) (bs : List Byte) : (s.writeBytes a bs).params = s.params := rfl
@[simp] theorem State.writeBytes_getV (a : Nat) (bs : List Byte) (y : Reg) : (s.writeBytes a bs).getV y = s.getV y := rfl

/-! ### stackWrite -/

@[simp] theorem State.stackWrite_mem (k : Nat) (w : Word) : (s.stackWrite k w).mem = memWriteList (resetByte s.params) s.mem (stackAddr k) (entryBytes s.params.stackEndian w) := rfl
@[simp] theorem State.stackWrite_v (k : Nat) (w : Word) : (s.stackWrite k w).v = s.v := rfl
@[simp] theorem State.stackWrite_i (k : Nat) (w : Word) : (s.stackWrite k w).i = s.i := rfl
@[simp] theorem State.stackWrite_pc (k : Nat) (w : Word) : (s.stackWrite k w).pc = s.pc := rfl
@[simp] theorem State.stackWrite_sp (k : Nat) (w : Word) : (s.stackWrite k w).sp = s.sp := rfl
@[simp] theorem State.stackWrite_plane (k : Nat) (w : Word) : (s.stackWrite k w).plane = s.plane := rfl
@[simp] theorem State.stackWrite_dt (k : Nat) (w : Word) : (s.stackWrite k w).dt = s.dt := rfl
@[simp] theorem State.stackWrite_st (k : Nat) (w : Word) : (s.stackWrite k w).st = s.st := rfl
@[simp] theorem State.stackWrite_ph (k : Nat) (w : Word) : (s.stackWrite k w).ph = s.ph := rfl
@[simp] theorem State.stackWrite_inc (k : Nat) (w : Word) : (s.stackWrite k w).inc = s.inc := rfl
@[simp] theorem State.stackWrite_ext (k : Nat) (w : Word) : (s.stackWrite k w).ext = s.ext := rfl
@[simp] theorem State.stackWrite_plen (k : Nat) (w : Word) : (s.stackWrite k w).plen = s.plen := rfl
@[simp] theorem State.stackWrite_out (k : Nat) (w : Word) : (s.stackWrite k w).out = s.out := rfl
@[simp] theorem State.stackWrite_input (k : Nat) (w : Word) : (s.stackWrite k w).input = s.input := rfl
@[simp] theorem State.stackWrite_pending (k : Nat) (w : Word) : (s.stackWrite k w).pending = s.pending := rfl
@[simp] theorem State.stackWrite_draws (k : Nat) (w : Word) : (s.stackWrite k w).draws = s.draws := rfl
@[simp] theorem State.stackWrite_params (k : Nat) (w : Word) : (s.stackWrite k w).params = s.params := rfl
@[simp] theorem State.stackWrite_getV (k : Nat) (w : Word) (y : Reg) : (s.stackWrite k w).getV y = s.getV y := rfl

/-! ### raiseHalt -/

@[simp] theorem State.raiseHalt_mem (r : HaltReason) : (s.raiseHalt r).mem = s.mem := rfl
@[simp] theorem State.raiseHalt_v (r : HaltReason) : (s.raiseHalt r).v = s.v := rfl
@[simp] theorem State.raiseHalt_i (r : HaltReason) : (s.raiseHalt r).i = s.i := rfl
@[simp] theorem State.raiseHalt_pc (r : HaltReason) : (s.raiseHalt r).pc = s.pc := rfl
@[simp] theorem State.raiseHalt_sp (r : HaltReason) : (s.raiseHalt r).sp = s.sp := rfl
@[simp] theorem State.raiseHalt_plane (r : HaltReason) : (s.raiseHalt r).plane = s.plane := rfl
@[simp] theorem State.raiseHalt_dt (r : HaltReason) : (s.raiseHalt r).dt = s.dt := rfl
@[simp] theorem State.raiseHalt_st (r : HaltReason) : (s.raiseHalt r).st = s.st := rfl
@[simp] theorem State.raiseHalt_ph (r : HaltReason) : (s.raiseHalt r).ph = s.ph := rfl
@[simp] theorem State.raiseHalt_inc (r : HaltReason) : (s.raiseHalt r).inc = s.inc := rfl
@[simp] theorem State.raiseHalt_ext (r : HaltReason) : (s.raiseHalt r).ext = s.ext := rfl
@[simp] theorem State.raiseHalt_plen (r : HaltReason) : (s.raiseHalt r).plen = s.plen := rfl
@[simp] theorem State.raiseHalt_out (r : HaltReason) : (s.raiseHalt r).out = .halt r := rfl
@[simp] theorem State.raiseHalt_input (r : HaltReason) : (s.raiseHalt r).input = s.input := rfl
@[simp] theorem State.raiseHalt_pending (r : HaltReason) : (s.raiseHalt r).pending = s.pending := rfl
@[simp] theorem State.raiseHalt_draws (r : HaltReason) : (s.raiseHalt r).draws = s.draws := rfl
@[simp] theorem State.raiseHalt_params (r : HaltReason) : (s.raiseHalt r).params = s.params := rfl
@[simp] theorem State.raiseHalt_getV (r : HaltReason) (y : Reg) : (s.raiseHalt r).getV y = s.getV y := rfl
@[simp] theorem State.raiseHalt_readByte (r : HaltReason) (c : Nat) : (s.raiseHalt r).readByte c = s.readByte c := rfl

/-! ### Accessors after the updates that change them -/

theorem State.getV_setV (x y : Reg) (b : Byte) : (s.setV x b).getV y = if y = x then b else s.getV y := by
  simp only [State.getV, State.setV, Bytes.get_set _ _ _ _ x.isLt]
  by_cases h : y = x
  · simp [h]
  · simp [h, Fin.val_ne_of_ne h]

@[simp] theorem State.getV_setV_self (x : Reg) (b : Byte) : (s.setV x b).getV x = b := by simp [State.getV_setV]

@[simp] theorem State.getV_setV_ne {x y : Reg} (b : Byte) (h : y ≠ x) : (s.setV x b).getV y = s.getV y := by
  simp [State.getV_setV, h]

/-- `MemWrite` then `MemRead` (20_memory.md R55). -/
theorem State.readByte_writeByte (hm : Memory.wf (resetByte s.params) s.mem) (a c : Nat) (b : Byte) :
    (s.writeByte a b).readByte c = if c = a then b else s.readByte c := memRead_memWrite hm a c b

/-- Consecutive writes leave every byte outside them. -/
theorem State.readByte_writeBytes_out {a c : Nat} (bs : List Byte) (h : c < a ∨ a + bs.length ≤ c) :
    (s.writeBytes a bs).readByte c = s.readByte c := memRead_memWriteList_out s.mem bs h

/-- Consecutive writes inside memory are read back. -/
theorem State.readByte_writeBytes_in (hm : Memory.wf (resetByte s.params) s.mem) {a k : Nat} {bs : List Byte}
    (ha : a + bs.length ≤ Config.memSize) (hk : k < bs.length) : (s.writeBytes a bs).readByte (a + k) = bs[k] :=
  memRead_memWriteList_in hm ha hk

/-- Consecutive writes inside memory keep the canonical form. -/
theorem State.wf_writeBytes (hm : Memory.wf (resetByte s.params) s.mem) {a : Nat} {bs : List Byte}
    (ha : a + bs.length ≤ Config.memSize) :
    Memory.wf (resetByte (s.writeBytes a bs).params) (s.writeBytes a bs).mem := Memory.wf_memWriteList hm ha

@[simp] theorem entryBytes_length (e : StackEndian) (w : Word) : (entryBytes e w).length = 2 := by cases e <;> rfl

@[simp] theorem decimalDigits_length (b : Byte) : (decimalDigits b).length = 3 := rfl

@[simp] theorem State.regRange_length (x : Reg) : (s.regRange x).length = x.val + 1 := by simp [State.regRange]

/-- Two bytes side by side, the first high. -/
theorem toNat_append_bytes (a b : Byte) : (a ++ b : Word).toNat = a.toNat * 256 + b.toNat := by
  rw [BitVec.toNat_append, Nat.shiftLeft_eq, Nat.mul_comm, ← Nat.two_pow_add_eq_or_of_lt b.isLt]

/-- The two bytes of an entry spell it, in either order (20_memory.md R58). -/
theorem entryOfBytes_entryBytes (e : StackEndian) (w : Word) :
    entryOfBytes e ((entryBytes e w)[0]'(by simp)) ((entryBytes e w)[1]'(by simp)) = w := by
  cases e <;> simp only [entryBytes, entryOfBytes, List.getElem_cons_zero, List.getElem_cons_succ] <;>
    (apply BitVec.eq_of_toNat_eq; rw [toNat_append_bytes]; simp [Nat.shiftRight_eq_div_pow]; omega)

/-- Everything a range check can do: past memory the cycle halts with nothing else changed, else the effect stands. -/
theorem guardRange_cases (n : Nat) (t : State) :
    (s.i.toNat + n > Config.memSize ∧ guardRange s n t = s.raiseHalt .memoryOutOfBounds) ∨
      (s.i.toNat + n ≤ Config.memSize ∧ guardRange s n t = t) := by
  by_cases h : s.i.toNat + n > Config.memSize
  · exact .inl ⟨h, if_pos h⟩
  · exact .inr ⟨Nat.not_lt.mp h, if_neg h⟩

/-- Everything the two writes of 43_alu.md R200 can do: only the V registers change, and only VX and VF. -/
theorem State.writeResultAndFlag_eq (x : Reg) (rf : Byte × Bool) :
    s.writeResultAndFlag x rf = { s with v := (s.writeResultAndFlag x rf).v } := by
  unfold State.writeResultAndFlag; split <;> rfl

theorem State.writeResultAndFlag_getV (x y : Reg) (rf : Byte × Bool) (hx : y ≠ x) (hf : y ≠ 15) :
    (s.writeResultAndFlag x rf).getV y = s.getV y := by
  unfold State.writeResultAndFlag; split <;> simp [hx, hf]

/-- Everything a key skip can do (45_timers_keys.md R260). -/
theorem State.skipOnKey_cases (b : Byte) (d : Bool) :
    (b.toNat ≥ Config.numKeys ∧ s.skipOnKey b d = s.raiseHalt .keyOutOfRange) ∨
      (b.toNat < Config.numKeys ∧ s.skipOnKey b d = s.skipIf (s.keyDown b.toNat == d)) := by
  by_cases h : b.toNat ≥ Config.numKeys
  · exact .inl ⟨h, if_pos h⟩
  · exact .inr ⟨Nat.not_le.mp h, if_neg h⟩

/-- The exact sums and differences of 43_alu.md are the wrapping ones of bytes. -/
theorem addFlag_fst (a b : Byte) : (addFlag a b).1 = a + b := by
  apply BitVec.eq_of_toNat_eq; simp [addFlag]

theorem subFlag_fst (a b : Byte) : (subFlag a b).1 = a - b := by
  apply BitVec.eq_of_toNat_eq
  have := a.isLt
  have := b.isLt
  simp only [subFlag, BitVec.toNat_ofInt, BitVec.toNat_sub]
  omega

end Sys2Proof.Machine
end

