-- ==== Sys2Proof/Laws/Cycle.lean ====
section
/-! SUPPORT. What the parts of a cycle leave unchanged, everything a step can do, and that a placed opcode is the one the next
step runs. -/

namespace Sys2Proof.Machine

variable (s : State)

/-! ## Sampling the inputs changes the ports only -/

@[simp] theorem sampleInputs_mem : (sampleInputs s).mem = s.mem := by unfold sampleInputs; split <;> rfl
@[simp] theorem sampleInputs_v : (sampleInputs s).v = s.v := by unfold sampleInputs; split <;> rfl
@[simp] theorem sampleInputs_i : (sampleInputs s).i = s.i := by unfold sampleInputs; split <;> rfl
@[simp] theorem sampleInputs_pc : (sampleInputs s).pc = s.pc := by unfold sampleInputs; split <;> rfl
@[simp] theorem sampleInputs_sp : (sampleInputs s).sp = s.sp := by unfold sampleInputs; split <;> rfl
@[simp] theorem sampleInputs_plane : (sampleInputs s).plane = s.plane := by unfold sampleInputs; split <;> rfl
@[simp] theorem sampleInputs_dt : (sampleInputs s).dt = s.dt := by unfold sampleInputs; split <;> rfl
@[simp] theorem sampleInputs_st : (sampleInputs s).st = s.st := by unfold sampleInputs; split <;> rfl
@[simp] theorem sampleInputs_ph : (sampleInputs s).ph = s.ph := by unfold sampleInputs; split <;> rfl
@[simp] theorem sampleInputs_inc : (sampleInputs s).inc = s.inc := by unfold sampleInputs; split <;> rfl
@[simp] theorem sampleInputs_ext : (sampleInputs s).ext = s.ext := by unfold sampleInputs; split <;> rfl
@[simp] theorem sampleInputs_plen : (sampleInputs s).plen = s.plen := by unfold sampleInputs; split <;> rfl
@[simp] theorem sampleInputs_params : (sampleInputs s).params = s.params := by unfold sampleInputs; split <;> rfl
@[simp] theorem sampleInputs_out : (sampleInputs s).out = .cont := by unfold sampleInputs; split <;> rfl

/-! ## The tick changes `PH`, `DT` and `ST` only (60_exceptions.md R290) -/

@[simp] theorem timerTick_mem : (timerTick s).mem = s.mem := by unfold timerTick; split <;> rfl
@[simp] theorem timerTick_v : (timerTick s).v = s.v := by unfold timerTick; split <;> rfl
@[simp] theorem timerTick_i : (timerTick s).i = s.i := by unfold timerTick; split <;> rfl
@[simp] theorem timerTick_pc : (timerTick s).pc = s.pc := by unfold timerTick; split <;> rfl
@[simp] theorem timerTick_sp : (timerTick s).sp = s.sp := by unfold timerTick; split <;> rfl
@[simp] theorem timerTick_plane : (timerTick s).plane = s.plane := by unfold timerTick; split <;> rfl
@[simp] theorem timerTick_inc : (timerTick s).inc = s.inc := by unfold timerTick; split <;> rfl
@[simp] theorem timerTick_ext : (timerTick s).ext = s.ext := by unfold timerTick; split <;> rfl
@[simp] theorem timerTick_plen : (timerTick s).plen = s.plen := by unfold timerTick; split <;> rfl
@[simp] theorem timerTick_out : (timerTick s).out = s.out := by unfold timerTick; split <;> rfl
@[simp] theorem timerTick_input : (timerTick s).input = s.input := by unfold timerTick; split <;> rfl
@[simp] theorem timerTick_pending : (timerTick s).pending = s.pending := by unfold timerTick; split <;> rfl
@[simp] theorem timerTick_draws : (timerTick s).draws = s.draws := by unfold timerTick; split <;> rfl
@[simp] theorem timerTick_params : (timerTick s).params = s.params := by unfold timerTick; split <;> rfl

/-! ## The state an instruction runs in -/

@[simp] theorem beginCycle_mem : (beginCycle s).mem = s.mem := by simp [beginCycle]
@[simp] theorem beginCycle_v : (beginCycle s).v = s.v := by simp [beginCycle]
@[simp] theorem beginCycle_i : (beginCycle s).i = s.i := by simp [beginCycle]
@[simp] theorem beginCycle_pc : (beginCycle s).pc = s.pc := by simp [beginCycle]
@[simp] theorem beginCycle_sp : (beginCycle s).sp = s.sp := by simp [beginCycle]
@[simp] theorem beginCycle_plane : (beginCycle s).plane = s.plane := by simp [beginCycle]
@[simp] theorem beginCycle_inc : (beginCycle s).inc = s.inc := by simp [beginCycle]
@[simp] theorem beginCycle_ext : (beginCycle s).ext = s.ext := by simp [beginCycle]
@[simp] theorem beginCycle_plen : (beginCycle s).plen = s.plen := by simp [beginCycle]
@[simp] theorem beginCycle_params : (beginCycle s).params = s.params := by simp [beginCycle]
@[simp] theorem beginCycle_out : (beginCycle s).out = .cont := by simp [beginCycle]
@[simp] theorem beginCycle_readByte (a : Nat) : (beginCycle s).readByte a = s.readByte a := by simp [State.readByte]
@[simp] theorem beginCycle_getV (x : Reg) : (beginCycle s).getV x = s.getV x := by simp [State.getV]
@[simp] theorem beginCycle_atEnd : atEndOfProgram (beginCycle s) = atEndOfProgram s := by simp [atEndOfProgram]
@[simp] theorem beginCycle_fetch : fetchOpcode (beginCycle s) = fetchOpcode s := by simp [fetchOpcode]

/-- `PH` is back in 0..15 after every tick (10_state.md R30). -/
theorem timerTick_ph_lt : (timerTick s).ph < 16 := by
  unfold timerTick
  split
  · simp
  · next h => simp only; cases he : s.ext <;> simp [he, Config.timerPeriod] at h <;> omega

/-- Everything a step can do: it halts at the end of the program or at an unknown opcode, faults where the fetch would leave
memory, or is `exec` of the decoded instruction in the state after the tick. -/
theorem step_cases :
    (atEndOfProgram s = true ∧ step s = .next ((beginCycle s).raiseHalt .endOfProgram)) ∨
      (atEndOfProgram s = false ∧
        ((fetchOpcode s = none ∧ step s = .fault .fetchOutsideMemory) ∨
          ∃ op, fetchOpcode s = some op ∧
            ((decodeOpcode op = none ∧ step s = .next ((beginCycle s).raiseHalt .unknownOpcode)) ∨
              ∃ i, decodeOpcode op = some i ∧ step s = exec i (beginCycle s)))) := by
  unfold step runCycle
  simp only [beginCycle_atEnd, beginCycle_fetch]
  cases h : atEndOfProgram s
  · refine .inr ⟨rfl, ?_⟩
    cases hf : fetchOpcode s with
    | none => exact .inl ⟨rfl, rfl⟩
    | some op =>
      refine .inr ⟨op, rfl, ?_⟩
      cases hd : decodeOpcode op with
      | none => exact .inl ⟨rfl, by simp [runOpcode, hd]⟩
      | some i => exact .inr ⟨i, rfl, by simp [runOpcode, hd]⟩
  · exact .inl ⟨rfl, rfl⟩

/-- Under the invariant a fetch lies inside memory (20_memory.md R62). -/
theorem fetchOpcode_of_inv (hi : s.Inv) (he : atEndOfProgram s = false) :
    fetchOpcode s = some (opcodeOfBytes (s.readByte s.pc.toNat) (s.readByte (s.pc.toNat + 1))) := by
  have hp := hi.2.2.2
  simp only [atEndOfProgram, Config.programStart, ge_iff_le, decide_eq_false_iff_not, Nat.not_le] at he
  exact if_pos (by simp only [Config.memSize]; omega)

/-! ## A placed opcode is the one the next step runs -/

theorem opcodeOfBytes_extract (op : Opcode) : opcodeOfBytes (op.extractLsb' 8 8) (op.extractLsb' 0 8) = op := by
  apply BitVec.eq_of_toNat_eq
  rw [opcodeOfBytes, toNat_append_bytes]
  simp [Nat.shiftRight_eq_div_pow]
  omega

/-- The next step of a state with a placed opcode decodes and executes exactly it. -/
theorem step_placeOpcode (op : Opcode) (hm : Memory.wf (resetByte s.params) s.mem) :
    step (placeOpcode s op) = runOpcode op (beginCycle (placeOpcode s op)) := by
  have key : ∀ a : Nat, a + 2 ≤ Config.memSize →
      opcodeOfBytes ((s.writeBytes a [op.extractLsb' 8 8, op.extractLsb' 0 8]).readByte a)
        ((s.writeBytes a [op.extractLsb' 8 8, op.extractLsb' 0 8]).readByte (a + 1)) = op := by
    intro a ha
    have h0 := s.readByte_writeBytes_in hm (a := a) (k := 0) (bs := [op.extractLsb' 8 8, op.extractLsb' 0 8]) ha (by simp)
    have h1 := s.readByte_writeBytes_in hm (a := a) (k := 1) (bs := [op.extractLsb' 8 8, op.extractLsb' 0 8]) ha (by simp)
    simp only [Nat.add_zero] at h0
    rw [h0, h1]
    exact opcodeOfBytes_extract op
  have hend : atEndOfProgram (placeOpcode s op) = false ∧ fetchOpcode (placeOpcode s op) = some op := by
    unfold placeOpcode
    by_cases hf : fetchesProgram s = true
    · simp only [hf, if_true]
      simp only [fetchesProgram, Bool.and_eq_true, Bool.not_eq_true', decide_eq_true_eq] at hf
      obtain ⟨⟨-, he⟩, hpc⟩ := hf
      refine ⟨by simpa [atEndOfProgram] using he, ?_⟩
      rw [fetchOpcode, if_pos (by simpa using hpc)]
      exact congrArg some (key _ hpc)
    · simp only [hf]
      refine ⟨by simp [atEndOfProgram], ?_⟩
      have h := key 0x200 (by simp)
      rw [fetchOpcode, if_pos (by simp)]
      exact congrArg some h
  unfold step runCycle
  simp [hend.1, hend.2]

end Sys2Proof.Machine
end

