-- ==== Sys2Proof/Laws/Decode.lean ====
section
/-! SUPPORT. The fields of an opcode built from a pattern, and masks as arithmetic. -/

namespace Sys2Proof

/-! ## What each pattern's fields are -/

theorem packNNN_lt {o : Nat} (ho : o < 16) (nnn : BitVec 12) : packNNN o nnn < 65536 := by
  have := nnn.isLt
  unfold packNNN; omega

theorem packXNN_lt {o : Nat} (ho : o < 16) (x : Reg) (nn : Byte) : packXNN o x nn < 65536 := by
  have := nn.isLt
  unfold packXNN; omega

theorem packXYN_lt {o n : Nat} (ho : o < 16) (hn : n < 16) (x y : Reg) : packXYN o x y n < 65536 := by
  unfold packXYN; omega

theorem packX_lt {o low : Nat} (ho : o < 16) (hl : low < 256) (x : Reg) : packX o x low < 65536 := by
  unfold packX; omega

/-- The opcode's number is what was packed. -/
theorem toNat_ofNat_of_lt {w : Nat} (h : w < 65536) : (BitVec.ofNat 16 w).toNat = w := by
  simp [Nat.mod_eq_of_lt h]

/-- The fields of oNNN. -/
theorem fields_packNNN {o : Nat} (ho : o < 16) (nnn : BitVec 12) :
    Opcode.o (BitVec.ofNat 16 (packNNN o nnn)) = o ∧ Opcode.nnn (BitVec.ofNat 16 (packNNN o nnn)) = nnn := by
  have := nnn.isLt
  rw [Opcode.o, Opcode.nnn, toNat_ofNat_of_lt (packNNN_lt ho nnn)]
  refine ⟨by unfold packNNN; omega, BitVec.eq_of_toNat_eq ?_⟩
  simp only [BitVec.toNat_ofNat, packNNN]; omega

/-- The fields of oXNN. -/
theorem fields_packXNN {o : Nat} (ho : o < 16) (x : Reg) (nn : Byte) :
    Opcode.o (BitVec.ofNat 16 (packXNN o x nn)) = o ∧ Opcode.x (BitVec.ofNat 16 (packXNN o x nn)) = x ∧
      Opcode.nn (BitVec.ofNat 16 (packXNN o x nn)) = nn := by
  have := nn.isLt
  simp only [Opcode.o, Opcode.x, Opcode.nn, toNat_ofNat_of_lt (packXNN_lt ho x nn)]
  refine ⟨by unfold packXNN; omega, Fin.ext (by simp only [packXNN]; omega), BitVec.eq_of_toNat_eq ?_⟩
  simp only [BitVec.toNat_ofNat, packXNN]; omega

/-- The fields of oXYN. -/
theorem fields_packXYN {o n : Nat} (ho : o < 16) (hn : n < 16) (x y : Reg) :
    Opcode.o (BitVec.ofNat 16 (packXYN o x y n)) = o ∧ Opcode.x (BitVec.ofNat 16 (packXYN o x y n)) = x ∧
      Opcode.y (BitVec.ofNat 16 (packXYN o x y n)) = y ∧ Opcode.n (BitVec.ofNat 16 (packXYN o x y n)) = ⟨n, hn⟩ := by
  simp only [Opcode.o, Opcode.x, Opcode.y, Opcode.n, toNat_ofNat_of_lt (packXYN_lt ho hn x y)]
  exact ⟨by unfold packXYN; omega, Fin.ext (by simp only [packXYN]; omega), Fin.ext (by simp only [packXYN]; omega),
    Fin.ext (by simp only [packXYN]; omega)⟩

/-- The fields of oX with a fixed low byte. -/
theorem fields_packX {o low : Nat} (ho : o < 16) (hl : low < 256) (x : Reg) :
    Opcode.o (BitVec.ofNat 16 (packX o x low)) = o ∧ Opcode.x (BitVec.ofNat 16 (packX o x low)) = x ∧
      (BitVec.ofNat 16 (packX o x low)).toNat % 256 = low := by
  simp only [Opcode.o, Opcode.x, toNat_ofNat_of_lt (packX_lt ho hl x)]
  exact ⟨by unfold packX; omega, Fin.ext (by simp only [packX]; omega), by unfold packX; omega⟩

/-! ## Masks as arithmetic -/

theorem toNat_and_low4 (op : Opcode) : (op &&& 0x000F#16).toNat = op.toNat % 16 := by
  rw [BitVec.toNat_and]; exact Nat.and_two_pow_sub_one_eq_mod _ 4

theorem toNat_and_low8 (op : Opcode) : (op &&& 0x00FF#16).toNat = op.toNat % 256 := by
  rw [BitVec.toNat_and]; exact Nat.and_two_pow_sub_one_eq_mod _ 8

/-- The mask of the patterns oNNN, oXNN and oXYN. -/
theorem toNat_and_F000 (op : Opcode) : (op &&& 0xF000#16).toNat = op.toNat / 4096 * 4096 := by
  have e : op &&& 0xF000#16 = (op >>> 12) <<< 12 := by ext i hi; interval_cases i <;> simp
  have := op.isLt
  rw [e]; simp [BitVec.toNat_shiftLeft, BitVec.toNat_ushiftRight, Nat.shiftLeft_eq, Nat.shiftRight_eq_div_pow]; omega

/-- The mask of the patterns oXY with a fixed low nibble. -/
theorem toNat_and_F00F (op : Opcode) : (op &&& 0xF00F#16).toNat = op.toNat / 4096 * 4096 + op.toNat % 16 := by
  have e : op &&& 0xF00F#16 = (op &&& 0xF000#16) + (op &&& 0x000F#16) := by
    rw [BitVec.add_eq_or_of_and_eq_zero] <;> (ext i hi; interval_cases i <;> simp)
  rw [e, BitVec.toNat_add, toNat_and_F000, toNat_and_low4]; omega

/-- The mask of the patterns oX with a fixed low byte. -/
theorem toNat_and_F0FF (op : Opcode) : (op &&& 0xF0FF#16).toNat = op.toNat / 4096 * 4096 + op.toNat % 256 := by
  have e : op &&& 0xF0FF#16 = (op &&& 0xF000#16) + (op &&& 0x00FF#16) := by
    rw [BitVec.add_eq_or_of_and_eq_zero] <;> (ext i hi; interval_cases i <;> simp)
  rw [e, BitVec.toNat_add, toNat_and_F000, toNat_and_low8]; omega

/-- The mask of 00CN. -/
theorem toNat_and_FFF0 (op : Opcode) : (op &&& 0xFFF0#16).toNat = op.toNat / 16 * 16 := by
  have e : op &&& 0xFFF0#16 = (op >>> 4) <<< 4 := by ext i hi; interval_cases i <;> simp
  have := op.isLt
  rw [e]; simp [BitVec.toNat_shiftLeft, BitVec.toNat_ushiftRight, Nat.shiftLeft_eq, Nat.shiftRight_eq_div_pow]; omega

/-- Whether an opcode lies in a row is a comparison of numbers. -/
theorem OpRow.matchesOp_iff (r : OpRow) (op : Opcode) : r.matchesOp op = true ↔ (op &&& r.mask).toNat = r.value.toNat := by
  rw [BitVec.toNat_inj]; simp [OpRow.matchesOp]

end Sys2Proof
end

