-- ==== Sys2Proof/Laws/Framebuffer.lean ====
section
/-! SUPPORT. The laws of the bit-packed plane: masks as bits, the geometry of pixels and bytes, and what a repaint does. -/

namespace Sys2Proof.Machine

/-! ## Masks as bits (42_display.md R161) -/

/-- Bit `j` of `mask(x)`. -/
theorem pixelMask_getLsbD (x j : Nat) : (pixelMask x).getLsbD j = decide (j = 7 - x % 8) := by
  have hx : x % 8 < 8 := Nat.mod_lt _ (by decide)
  unfold pixelMask
  generalize x % 8 = k at *
  by_cases hj : j < 8
  · interval_cases k <;> interval_cases j <;> rfl
  · rw [BitVec.getLsbD_of_ge _ _ (by omega)]
    simp only [Bool.false_eq, decide_eq_false_iff_not]
    omega

/-- Testing a byte against `mask(x)` reads one bit. -/
theorem and_pixelMask_ne_zero (b : Byte) (x : Nat) : (b &&& pixelMask x != 0) = b.getLsbD (7 - x % 8) := by
  have hx : x % 8 < 8 := Nat.mod_lt _ (by decide)
  rw [Bool.eq_iff_iff, bne_iff_ne, Ne, ← not_iff_not, not_not]
  constructor
  · intro h
    have := congrArg (·.getLsbD (7 - x % 8)) h
    simpa [pixelMask_getLsbD] using this
  · intro h
    apply BitVec.eq_of_getLsbD_eq
    intro j hj
    rw [BitVec.getLsbD_and, pixelMask_getLsbD]
    by_cases e : j = 7 - x % 8
    · subst e; simpa using h
    · simp [e]

/-- `Pix(x, y)` is one bit of the plane. -/
theorem getPix_eq (ext : Bool) (d : Plane) (x y : Nat) :
    getPix ext d x y = (d.get (pixelByte ext x y)).getLsbD (7 - x % 8) := and_pixelMask_ne_zero _ _

/-! ## Pixels and bytes (42_display.md R160) -/

theorem stride_eq (ext : Bool) : stride ext = if ext then 16 else 8 := by cases ext <;> rfl

/-- The byte of a pixel of the current resolution lies in the current resolution's part of the plane. -/
theorem pixelByte_lt {ext : Bool} {x y : Nat} (hx : x < Config.width ext) (hy : y < Config.height ext) :
    pixelByte ext x y < stride ext * Config.height ext := by
  cases ext <;> simp [pixelByte, stride_eq, Config.width, Config.height] at * <;> omega

/-- The current resolution's part lies in the plane. -/
theorem stride_height_le (ext : Bool) : stride ext * Config.height ext ≤ Config.dispBytes := by cases ext <;> decide

/-- The byte of a pixel gives back its row and its group of eight columns. -/
theorem pixelByte_div_mod {ext : Bool} {x y : Nat} (hx : x < Config.width ext) :
    pixelByte ext x y / stride ext = y ∧ pixelByte ext x y % stride ext = x / 8 := by
  cases ext <;> simp [pixelByte, stride_eq, Config.width] at * <;> omega

/-- Two pixels on one bit are one pixel. -/
theorem pixelByte_inj {ext : Bool} {x y x' y' : Nat} (hx : x < Config.width ext) (hx' : x' < Config.width ext)
    (hb : pixelByte ext x y = pixelByte ext x' y') (hm : x % 8 = x' % 8) : x = x' ∧ y = y' := by
  have h := pixelByte_div_mod (y := y) hx
  have h' := pixelByte_div_mod (y := y') hx'
  rw [hb] at h
  omega

/-! ## Repaint (42_display.md R166 to R168) -/

/-- Bit `7 - j` of eight packed pixels is pixel `j`. -/
theorem packPixels_getLsbD (f : Nat → Bool) {j : Nat} (hj : j < 8) : (packPixels f).getLsbD (7 - j) = f j := by
  have h : packPixels f = BitVec.ofNat 8 (2 * (2 * (2 * (2 * (2 * (2 * (2 * (f 0).toNat + (f 1).toNat) + (f 2).toNat) +
      (f 3).toNat) + (f 4).toNat) + (f 5).toNat) + (f 6).toNat) + (f 7).toNat) := by
    simp [packPixels, List.range, List.range.loop]
  rw [h]
  interval_cases j <;>
    (cases f 0 <;> cases f 1 <;> cases f 2 <;> cases f 3 <;> cases f 4 <;> cases f 5 <;> cases f 6 <;> cases f 7 <;> rfl)

/-- A repaint sets every pixel of the current resolution to `f x y`. -/
theorem getPix_repaint (ext : Bool) (f : Nat → Nat → Bool) (d : Plane) {x y : Nat} (hx : x < Config.width ext)
    (hy : y < Config.height ext) : getPix ext (repaint ext f d) x y = f x y := by
  have hb := pixelByte_lt hx hy
  obtain ⟨hq, hr⟩ := pixelByte_div_mod (y := y) hx
  rw [getPix_eq, repaint, Bytes.get_build _ (Nat.lt_of_lt_of_le hb (stride_height_le ext)), if_pos hb, hq, hr,
    packPixels_getLsbD _ (Nat.mod_lt _ (by decide)), Nat.mul_comm, Nat.div_add_mod]

/-- A repaint keeps every byte outside the current resolution. -/
theorem get_repaint_out (ext : Bool) (f : Nat → Nat → Bool) (d : Plane) {k : Nat}
    (hk : stride ext * Config.height ext ≤ k) : (repaint ext f d).get k = d.get k := by
  by_cases h : k < Config.dispBytes
  · rw [repaint, Bytes.get_build _ h, if_neg (Nat.not_lt.mpr hk)]
  · have e : ∀ b : Plane, b.get k = 0 := fun b => by
      simp [Bytes.get, List.getD_eq_getElem?_getD, b.length_eq, Nat.not_lt.mp h]
    rw [e, e]

/-! ## Setting a pixel (42_display.md R161) -/

/-- Setting a pixel writes one byte. -/
theorem get_setPix_ne (ext : Bool) (d : Plane) (x y : Nat) (b : Bool) {k : Nat} (h : k ≠ pixelByte ext x y) :
    (setPix ext d x y b).get k = d.get k := Bytes.get_set_ne _ _ h

/-- Setting a pixel writes one bit of that byte. -/
theorem getLsbD_setPix (ext : Bool) (d : Plane) (x y : Nat) (b : Bool) {j : Nat} (hj : j < 8)
    (h : pixelByte ext x y < Config.dispBytes) :
    ((setPix ext d x y b).get (pixelByte ext x y)).getLsbD j =
      if j = 7 - x % 8 then b else (d.get (pixelByte ext x y)).getLsbD j := by
  rw [setPix, Bytes.get_set_self _ _ _ h]
  cases b <;> simp only [Bool.false_eq_true, if_false, if_true, BitVec.getLsbD_and, BitVec.getLsbD_or,
    BitVec.getLsbD_not, pixelMask_getLsbD, hj, decide_true, Bool.true_and] <;>
    by_cases e : j = 7 - x % 8 <;> simp [e]

/-! ## Sprites (42_display.md R164) -/

/-- What every plot keeps, a draw keeps. -/
theorem drawSprite_induction {ext : Bool} {P : Plane × Bool → Prop} (d : Plane) (x0 y0 rows cols : Nat)
    (spr : Nat → Nat → Bool) (h0 : P (d, false))
    (hp : ∀ acc r c, P acc → r < rows → c < cols → spr r c = true →
      P (plotBit ext ((x0 + c) % Config.width ext) ((y0 + r) % Config.height ext) acc)) :
    P (drawSprite ext d x0 y0 rows cols spr) := by
  have hrow : ∀ r acc, r < rows → P acc → P (drawRow ext x0 ((y0 + r) % Config.height ext) cols (spr r) acc) := by
    intro r acc hr ha
    refine List.foldlRecOn _ _ ha fun acc ha c hc => ?_
    split
    · next hb => exact hp acc r c ha hr (List.mem_range.mp hc) hb
    · exact ha
  exact List.foldlRecOn _ _ h0 fun acc ha r hr => hrow r acc (List.mem_range.mp hr) ha

end Sys2Proof.Machine
end

