-- ==== Sys2Proof/Laws/PerInstr.lean ====
section
/-! SUPPORT. Per instruction: the encoder's word lies in the instruction's own row of the opcode table (30_encoding.md R96). -/

namespace Sys2Proof.Laws.EncodeInRow

section
variable {o : Nat}

theorem nnn_inRow (name : String) (ho : o < 16) (nnn : BitVec 12) :
    (OpRow.mk name 0xF000 (BitVec.ofNat 16 (o * 4096))).matchesOp (BitVec.ofNat 16 (packNNN o nnn)) = true := by
  have := nnn.isLt
  refine (OpRow.matchesOp_iff ..).mpr ((toNat_and_F000 _).trans ?_)
  rw [toNat_ofNat_of_lt (packNNN_lt ho nnn), toNat_ofNat_of_lt (by omega)]
  unfold packNNN; omega

theorem nn_inRow (name : String) (ho : o < 16) (x : Reg) (nn : Byte) :
    (OpRow.mk name 0xF000 (BitVec.ofNat 16 (o * 4096))).matchesOp (BitVec.ofNat 16 (packXNN o x nn)) = true := by
  have := nn.isLt
  refine (OpRow.matchesOp_iff ..).mpr ((toNat_and_F000 _).trans ?_)
  rw [toNat_ofNat_of_lt (packXNN_lt ho x nn), toNat_ofNat_of_lt (by omega)]
  unfold packXNN; omega

theorem xyn_inRow (name : String) (ho : o < 16) (x y : Reg) (n : Fin 16) :
    (OpRow.mk name 0xF000 (BitVec.ofNat 16 (o * 4096))).matchesOp (BitVec.ofNat 16 (packXYN o x y n.val)) = true := by
  refine (OpRow.matchesOp_iff ..).mpr ((toNat_and_F000 _).trans ?_)
  rw [toNat_ofNat_of_lt (packXYN_lt ho n.isLt x y), toNat_ofNat_of_lt (by omega)]
  unfold packXYN; omega

theorem xy_inRow (name : String) (ho : o < 16) {n : Nat} (hn : n < 16) (x y : Reg) :
    (OpRow.mk name 0xF00F (BitVec.ofNat 16 (o * 4096 + n))).matchesOp (BitVec.ofNat 16 (packXYN o x y n)) = true := by
  refine (OpRow.matchesOp_iff ..).mpr ((toNat_and_F00F _).trans ?_)
  rw [toNat_ofNat_of_lt (packXYN_lt ho hn x y), toNat_ofNat_of_lt (by omega)]
  unfold packXYN; omega

theorem x_inRow (name : String) (ho : o < 16) {low : Nat} (hl : low < 256) (x : Reg) :
    (OpRow.mk name 0xF0FF (BitVec.ofNat 16 (o * 4096 + low))).matchesOp (BitVec.ofNat 16 (packX o x low)) = true := by
  refine (OpRow.matchesOp_iff ..).mpr ((toNat_and_F0FF _).trans ?_)
  rw [toNat_ofNat_of_lt (packX_lt ho hl x), toNat_ofNat_of_lt (by omega)]
  unfold packX; omega

end

/-- The encoded word has the fixed bits of the instruction's row. -/
def Statement (i : Instr) : Prop := (rowOf i).matchesOp (encode i) = true

theorem cls : Statement .cls := rfl
theorem ret : Statement .ret := rfl
theorem scd (n : Fin 16) : Statement (.scd n) := by unfold Statement; revert n; decide
theorem togi : Statement .togi := rfl
theorem scr : Statement .scr := rfl
theorem scl : Statement .scl := rfl
theorem exitReq : Statement .exitReq := rfl
theorem low : Statement .low := rfl
theorem high : Statement .high := rfl
theorem sys (nnn : BitVec 12) : Statement (.sys nnn) := nnn_inRow _ (by decide) nnn
theorem jp (nnn : BitVec 12) : Statement (.jp nnn) := nnn_inRow _ (by decide) nnn
theorem call (nnn : BitVec 12) : Statement (.call nnn) := nnn_inRow _ (by decide) nnn
theorem seImm (x : Reg) (nn : Byte) : Statement (.seImm x nn) := nn_inRow _ (by decide) x nn
theorem sneImm (x : Reg) (nn : Byte) : Statement (.sneImm x nn) := nn_inRow _ (by decide) x nn
theorem seReg (x y : Reg) : Statement (.seReg x y) := xy_inRow _ (by decide) (by decide) x y
theorem ldImm (x : Reg) (nn : Byte) : Statement (.ldImm x nn) := nn_inRow _ (by decide) x nn
theorem addImm (x : Reg) (nn : Byte) : Statement (.addImm x nn) := nn_inRow _ (by decide) x nn
theorem ldReg (x y : Reg) : Statement (.ldReg x y) := xy_inRow _ (by decide) (by decide) x y
theorem orReg (x y : Reg) : Statement (.orReg x y) := xy_inRow _ (by decide) (by decide) x y
theorem andReg (x y : Reg) : Statement (.andReg x y) := xy_inRow _ (by decide) (by decide) x y
theorem xorReg (x y : Reg) : Statement (.xorReg x y) := xy_inRow _ (by decide) (by decide) x y
theorem addReg (x y : Reg) : Statement (.addReg x y) := xy_inRow _ (by decide) (by decide) x y
theorem subReg (x y : Reg) : Statement (.subReg x y) := xy_inRow _ (by decide) (by decide) x y
theorem shr (x y : Reg) : Statement (.shr x y) := xy_inRow _ (by decide) (by decide) x y
theorem subnReg (x y : Reg) : Statement (.subnReg x y) := xy_inRow _ (by decide) (by decide) x y
theorem shl (x y : Reg) : Statement (.shl x y) := xy_inRow _ (by decide) (by decide) x y
theorem sneReg (x y : Reg) : Statement (.sneReg x y) := xy_inRow _ (by decide) (by decide) x y
theorem ldI (nnn : BitVec 12) : Statement (.ldI nnn) := nnn_inRow _ (by decide) nnn
theorem jpV0 (nnn : BitVec 12) : Statement (.jpV0 nnn) := nnn_inRow _ (by decide) nnn
theorem rnd (x : Reg) (nn : Byte) : Statement (.rnd x nn) := nn_inRow _ (by decide) x nn
theorem drw (x y : Reg) (n : Fin 16) : Statement (.drw x y n) := xyn_inRow _ (by decide) x y n
theorem drwExt (x y : Reg) : Statement (.drwExt x y) := xy_inRow _ (by decide) (by decide) x y
theorem skp (x : Reg) : Statement (.skp x) := x_inRow _ (by decide) (by decide) x
theorem sknp (x : Reg) : Statement (.sknp x) := x_inRow _ (by decide) (by decide) x
theorem ldVxDt (x : Reg) : Statement (.ldVxDt x) := x_inRow _ (by decide) (by decide) x
theorem ldVxK (x : Reg) : Statement (.ldVxK x) := x_inRow _ (by decide) (by decide) x
theorem ldDtVx (x : Reg) : Statement (.ldDtVx x) := x_inRow _ (by decide) (by decide) x
theorem ldStVx (x : Reg) : Statement (.ldStVx x) := x_inRow _ (by decide) (by decide) x
theorem addI (x : Reg) : Statement (.addI x) := x_inRow _ (by decide) (by decide) x
theorem ldF (x : Reg) : Statement (.ldF x) := x_inRow _ (by decide) (by decide) x
theorem ldHF (x : Reg) : Statement (.ldHF x) := x_inRow _ (by decide) (by decide) x
theorem ldB (x : Reg) : Statement (.ldB x) := x_inRow _ (by decide) (by decide) x
theorem storeRegs (x : Reg) : Statement (.storeRegs x) := x_inRow _ (by decide) (by decide) x
theorem loadRegs (x : Reg) : Statement (.loadRegs x) := x_inRow _ (by decide) (by decide) x

end Sys2Proof.Laws.EncodeInRow
end

