-- ==== Sys2Proof/Tests/Slice0.lean ====
section
/-! SUPPORT. The package's own tests: ill-formed terms, decoding of words written out from the encodings, one step of every
instruction on the spec's own test vectors, and a witness for the hypotheses of every statement that has some. -/

namespace Sys2Proof.Tests

set_option Elab.async false

open Sys2Proof Sys2Proof.Machine Sys2Proof.Claims

/-! ## Helpers -/

/-- The parameters of 95_test_vectors.md: the defaults, with a GLYPH_IMAGE of zeros (no vector used here reads it). -/
def testParams : Params :=
  { glyphImage := Bytes.zeros 240, stackEndian := .little, vfOrder := .flagLast, shiftSource := .vx, fx0aWritesKey := false }

/-- A program loaded as the vectors load it; every coming cycle sees the given keys and rand = 0xAB. -/
def loadedWith (p : Params) (keys : BitVec 16) (bs : List Byte) : State :=
  { (loadProgram bs (State.constructed p)).2 with pending := List.replicate 16 { keys := keys, rand := 0xAB } }

/-- The same with no key down and the default parameters. -/
def loaded (bs : List Byte) : State := loadedWith testParams 0 bs

/-- The two bytes of an opcode, high byte first. -/
def bytesOf (op : Opcode) : List Byte := [op.extractLsb' 8 8, op.extractLsb' 0 8]

/-- A single-instruction vector: the opcode and two zero bytes (L = 4). -/
def one (op : Opcode) : State := loaded (bytesOf op ++ [0, 0])

/-- The same with keys down. -/
def oneKeys (keys : BitVec 16) (op : Opcode) : State := loadedWith testParams keys (bytesOf op ++ [0, 0])

/-- The same under other parameters. -/
def oneWith (p : Params) (op : Opcode) : State := loadedWith p 0 (bytesOf op ++ [0, 0])

/-- A change made before the Advance: V registers. -/
def setVs (s : State) (l : List (Reg × Byte)) : State := l.foldl (fun s c => s.setV c.1 c.2) s

/-- A change made before the Advance: bytes of the plane. -/
def setD (s : State) (l : List (Nat × Byte)) : State :=
  { s with plane := l.foldl (fun d c => d.set c.1 c.2) s.plane }

/-- The next state of an answer; the given one where there is none. -/
def nextOf (o : Host.Outcome State Fault Refusal) (d : State) : State :=
  match o with
  | .next t => t
  | _ => d

/-- Whether an answer is a next state. -/
def isNext (o : Host.Outcome State Fault Refusal) : Bool :=
  match o with
  | .next _ => true
  | _ => false

theorem eq_next_of_isNext {o : Host.Outcome State Fault Refusal} (d : State) (h : isNext o = true) :
    o = .next (nextOf o d) := by
  cases o <;> simp_all [isNext, nextOf]

/-- What one Advance answers, seen through a view of the next state. -/
def seen {α : Type} (s : State) (view : State → α) : Option α :=
  match step s with
  | .next t => some (view t)
  | _ => none

/-- The state after `k` Advances. -/
def runFrom (s : State) : Nat → State
  | 0 => s
  | k + 1 => nextOf (step (runFrom s k)) (runFrom s k)

/-! ## WellFormed: one ill-formed term for each check -/

theorem test_sys_of_cls_refused : (Instr.sys 0x0E0).wellFormed = false := by decide
theorem test_sys_of_ret_refused : (Instr.sys 0x0EE).wellFormed = false := by decide
theorem test_sys_of_scroll_refused : (Instr.sys 0x0C5).wellFormed = false := by decide
theorem test_sys_of_mode_refused : (Instr.sys 0x0FA).wellFormed = false ∧ (Instr.sys 0x0FF).wellFormed = false := by decide
theorem test_drw_of_no_rows_refused : (Instr.drw 1 2 0).wellFormed = false := by decide
theorem test_neighbours_accepted : (Instr.sys 0x0F9).wellFormed = true ∧ (Instr.sys 0x100).wellFormed = true ∧
    (Instr.sys 0x0BF).wellFormed = true ∧ (Instr.sys 0x0D0).wellFormed = true ∧ (Instr.drw 1 2 1).wellFormed = true := by
  decide

/-! ## Decoding: a word of every row, written out from the patterns of 30_encoding.md R82 and R95 -/

theorem test_decode_group0 :
    decodeOpcode 0b0000_0000_1110_0000 = some .cls ∧ decodeOpcode 0b0000_0000_1110_1110 = some .ret ∧
    decodeOpcode 0b0000_0000_1100_0101 = some (.scd 5) ∧ decodeOpcode 0b0000_0000_1111_1010 = some .togi ∧
    decodeOpcode 0b0000_0000_1111_1011 = some .scr ∧ decodeOpcode 0b0000_0000_1111_1100 = some .scl ∧
    decodeOpcode 0b0000_0000_1111_1101 = some .exitReq ∧ decodeOpcode 0b0000_0000_1111_1110 = some .low ∧
    decodeOpcode 0b0000_0000_1111_1111 = some .high ∧ decodeOpcode 0b0000_0001_0010_0011 = some (.sys 0x123) := by decide

theorem test_decode_jumps :
    decodeOpcode 0b0001_0010_0000_1000 = some (.jp 0x208) ∧ decodeOpcode 0b0010_0010_0000_1010 = some (.call 0x20A) ∧
    decodeOpcode 0b1011_0011_0000_0000 = some (.jpV0 0x300) := by decide

theorem test_decode_skips :
    decodeOpcode 0b0011_0001_0000_0010 = some (.seImm 1 0x02) ∧ decodeOpcode 0b0100_0010_0000_0101 = some (.sneImm 2 0x05) ∧
    decodeOpcode 0b0101_0001_0010_0000 = some (.seReg 1 2) ∧ decodeOpcode 0b1001_0001_0010_0000 = some (.sneReg 1 2) := by
  decide

theorem test_decode_immediates :
    decodeOpcode 0b0110_0011_0000_1010 = some (.ldImm 3 0x0A) ∧ decodeOpcode 0b0111_0001_1111_1111 = some (.addImm 1 0xFF) ∧
    decodeOpcode 0b1100_0100_0000_1111 = some (.rnd 4 0x0F) := by decide

theorem test_decode_group8 :
    decodeOpcode 0b1000_0001_0010_0000 = some (.ldReg 1 2) ∧ decodeOpcode 0b1000_0001_0010_0001 = some (.orReg 1 2) ∧
    decodeOpcode 0b1000_0001_0010_0010 = some (.andReg 1 2) ∧ decodeOpcode 0b1000_0001_0010_0011 = some (.xorReg 1 2) ∧
    decodeOpcode 0b1000_0001_0010_0100 = some (.addReg 1 2) ∧ decodeOpcode 0b1000_0001_0010_0101 = some (.subReg 1 2) ∧
    decodeOpcode 0b1000_0001_0010_0110 = some (.shr 1 2) ∧ decodeOpcode 0b1000_0001_0010_0111 = some (.subnReg 1 2) ∧
    decodeOpcode 0b1000_0001_0010_1110 = some (.shl 1 2) := by decide

theorem test_decode_index :
    decodeOpcode 0b1010_0010_0000_1110 = some (.ldI 0x20E) ∧ decodeOpcode 0b1111_0010_0001_1110 = some (.addI 2) ∧
    decodeOpcode 0b1111_0010_0010_1001 = some (.ldF 2) ∧ decodeOpcode 0b1111_0010_0011_0000 = some (.ldHF 2) ∧
    decodeOpcode 0b1111_0010_0011_0011 = some (.ldB 2) ∧ decodeOpcode 0b1111_0010_0101_0101 = some (.storeRegs 2) ∧
    decodeOpcode 0b1111_0010_0110_0101 = some (.loadRegs 2) := by decide

theorem test_decode_draws :
    decodeOpcode 0b1101_0001_0010_0011 = some (.drw 1 2 3) ∧ decodeOpcode 0b1101_0001_0010_0000 = some (.drwExt 1 2) := by
  decide

theorem test_decode_keys_timers :
    decodeOpcode 0b1110_0101_1001_1110 = some (.skp 5) ∧ decodeOpcode 0b1110_0101_1010_0001 = some (.sknp 5) ∧
    decodeOpcode 0b1111_0101_0000_0111 = some (.ldVxDt 5) ∧ decodeOpcode 0b1111_0101_0000_1010 = some (.ldVxK 5) ∧
    decodeOpcode 0b1111_0101_0001_0101 = some (.ldDtVx 5) ∧ decodeOpcode 0b1111_0101_0001_1000 = some (.ldStVx 5) := by decide

/-- 95_test_vectors.md V-CYC 1 to 8. -/
theorem test_decode_unknown :
    decodeOpcode 0x5121 = none ∧ decodeOpcode 0x9011 = none ∧ decodeOpcode 0x800F = none ∧ decodeOpcode 0xE09F = none ∧
    decodeOpcode 0xF0FF = none ∧ decodeOpcode 0xF075 = none ∧ decodeOpcode 0x00C5 = some (.scd 5) ∧
    decodeOpcode 0x00F9 = some (.sys 0x0F9) := by decide

theorem test_decode_bytes :
    decodeBytes [0x60, 0x0A, 0x12] = .ok (.ldImm 0 0x0A, [0x12]) ∧ decodeBytes [0x60] = .error .truncated ∧
    decodeBytes [0x51, 0x21] = .error (.unknownOpcode 0x5121) := by decide

theorem test_table_word : decodeTableWord 16 0xD123 = some (.drw 1 2 3) ∧ decodeTableWord 16 0x5121 = none := by decide

/-- The word placed after reset is the one the next step runs. -/
theorem test_placed_word : (seen (State.reset.withFetchWord 16 0x60AB) fun t => (t.getV 0, t.pc)) = some (0xAB, 0x202) := by
  decide +kernel

/-! ## Control transfer and skips (95_test_vectors.md V-CTL) -/

theorem test_jp : (seen (one 0x1208) fun t => (t.pc, t.out)) = some (0x208, .cont) := by decide +kernel

/-- The call at 0x204 of V-CTL 2 and 3. -/
def callAt204 (p : Params) : State := { loadedWith p 0 [0, 0, 0, 0, 0x22, 0x0A] with pc := 0x204 }

theorem test_call_little : (seen (callAt204 testParams) fun t => (t.sp, t.readByte 0xEA2, t.readByte 0xEA3, t.pc)) =
    some (1, 0x04, 0x02, 0x20A) := by decide +kernel

theorem test_call_big :
    (seen (callAt204 { testParams with stackEndian := .big }) fun t => (t.readByte 0xEA2, t.readByte 0xEA3)) =
    some (0x02, 0x04) := by decide +kernel

/-- V-CTL 4 and 6: SP = 1 and an entry of two bytes. -/
def returning (b0 b1 : Byte) : State := { (one 0x00EE).writeBytes 0xEA2 [b0, b1] with sp := 1 }

theorem test_ret : (seen (returning 0x04 0x02) fun t => (t.pc, t.sp, t.readByte 0xEA2, t.readByte 0xEA3)) =
    some (0x206, 0, 0x04, 0x02) := by decide +kernel

theorem test_ret_wraps : (seen (returning 0xFE 0xFF) fun t => (t.pc, t.sp)) = some (0, 0) := by decide +kernel

theorem test_ret_underflow : (seen (one 0x00EE) fun t => (t.out, t.pc, t.sp)) = some (.halt .stackUnderflow, 0x200, 0) := by
  decide +kernel

/-- V-CTL 7, at its last two calls. -/
theorem test_call_deepest : (seen { one 0x2200 with sp := 174 } fun t => (t.sp, t.readByte 0xFFE, t.readByte 0xFFF)) =
    some (175, 0x00, 0x02) := by decide +kernel

theorem test_call_overflow : (seen { one 0x2200 with sp := 175 } fun t => (t.out, t.sp, t.pc)) =
    some (.halt .stackOverflow, 175, 0x200) := by decide +kernel

theorem test_seImm : (seen (one 0x3100) (·.pc)) = some 0x204 ∧ (seen (one 0x3101) (·.pc)) = some 0x202 := by decide +kernel

theorem test_sneImm : (seen (setVs (one 0x4205) [(2, 5)]) (·.pc)) = some 0x202 ∧
    (seen (setVs (one 0x4206) [(2, 5)]) (·.pc)) = some 0x204 := by decide +kernel

theorem test_seReg : (seen (setVs (one 0x5010) [(0, 7), (1, 7)]) (·.pc)) = some 0x204 ∧
    (seen (setVs (one 0x5000) [(0, 3)]) (·.pc)) = some 0x204 := by decide +kernel

theorem test_sneReg : (seen (setVs (one 0x9010) [(0, 1), (1, 2)]) (·.pc)) = some 0x204 ∧
    (seen (setVs (one 0x9000) [(0, 3)]) (·.pc)) = some 0x202 := by decide +kernel

theorem test_jpV0 : (seen (setVs (one 0xB300) [(0, 4)]) (·.pc)) = some 0x304 := by decide +kernel

theorem test_jpV0_not_masked : (seen (setVs (one 0xBFFF) [(0, 0xFF)]) (·.pc)) = some 0x10FE := by decide +kernel

theorem test_sys : (seen (one 0x0123) (·.pc)) = some 0x202 ∧ (seen (one 0x00E1) fun t => (t.pc, t.out)) = some (0x202, .cont) := by
  decide +kernel

theorem test_exitReq : (seen (one 0x00FD) fun t => (t.out, t.pc)) = some (.exitRequest, 0x202) := by decide +kernel

/-! ## Register arithmetic (95_test_vectors.md V-ALU) -/

theorem test_ldImm : (seen (one 0x600A) (·.getV 0)) = some 0x0A := by decide +kernel

theorem test_addImm_wraps : (seen (setVs (one 0x7001) [(0, 0xFF), (15, 0x55)]) fun t => (t.getV 0, t.getV 15)) =
    some (0x00, 0x55) := by decide +kernel

theorem test_ldReg : (seen (setVs (one 0x8030) [(3, 0x42)]) (·.getV 0)) = some 0x42 := by decide +kernel

theorem test_orReg : (seen (setVs (one 0x8011) [(0, 0xF0), (1, 0x0F), (15, 7)]) fun t => (t.getV 0, t.getV 15)) =
    some (0xFF, 7) := by decide +kernel

theorem test_andReg : (seen (setVs (one 0x8012) [(0, 0xF3), (1, 0x3F)]) (·.getV 0)) = some 0x33 := by decide +kernel

theorem test_xorReg_itself : (seen (setVs (one 0x8003) [(0, 0x5A)]) (·.getV 0)) = some 0x00 := by decide +kernel

theorem test_addReg_carry : (seen (setVs (one 0x8014) [(0, 0xFF), (1, 0x01)]) fun t => (t.getV 0, t.getV 15)) =
    some (0x00, 1) := by decide +kernel

theorem test_addReg_into_vf :
    (seen (setVs (one 0x8F04) [(15, 0xFF), (0, 0x01)]) (·.getV 15)) = some 1 ∧
    (seen (setVs (oneWith { testParams with vfOrder := .resultLast } 0x8F04) [(15, 0xFF), (0, 0x01)]) (·.getV 15)) =
      some 0x00 := by decide +kernel

theorem test_subReg_equal : (seen (setVs (one 0x8015) [(0, 5), (1, 5)]) fun t => (t.getV 0, t.getV 15)) = some (0x00, 1) := by
  decide +kernel

theorem test_subReg_borrow : (seen (setVs (one 0x8015) [(0, 4), (1, 5)]) fun t => (t.getV 0, t.getV 15)) = some (0xFF, 0) := by
  decide +kernel

theorem test_subnReg_borrow : (seen (setVs (one 0x8017) [(0, 5), (1, 3)]) fun t => (t.getV 0, t.getV 15)) = some (0xFE, 0) := by
  decide +kernel

theorem test_subnReg : (seen (setVs (one 0x8017) [(0, 3), (1, 5)]) fun t => (t.getV 0, t.getV 15)) = some (0x02, 1) := by
  decide +kernel

theorem test_shr_vx : (seen (setVs (one 0x8016) [(0, 0xFF), (1, 0x02)]) fun t => (t.getV 0, t.getV 15)) = some (0x7F, 1) := by
  decide +kernel

theorem test_shr_vy : (seen (setVs (oneWith { testParams with shiftSource := .vy } 0x8016) [(0, 0xFF), (1, 0x02)])
    fun t => (t.getV 0, t.getV 15)) = some (0x01, 0) := by decide +kernel

theorem test_shl : (seen (setVs (one 0x800E) [(0, 0x81)]) fun t => (t.getV 0, t.getV 15)) = some (0x02, 1) := by decide +kernel

theorem test_shl_into_vf :
    (seen (setVs (one 0x8FFE) [(15, 0x40)]) (·.getV 15)) = some 0 ∧
    (seen (setVs (oneWith { testParams with vfOrder := .resultLast } 0x8FFE) [(15, 0x40)]) (·.getV 15)) = some 0x80 := by
  decide +kernel

theorem test_rnd : (seen (one 0xC00F) (·.getV 0)) = some 0x0B := by decide +kernel

/-- W5. -/
theorem test_rnd_zero : (seen (setVs (one 0xC300) [(3, 0x77)]) (·.getV 3)) = some 0x00 := by decide +kernel

/-! ## Framebuffer (95_test_vectors.md V-DSP) -/

theorem test_cls : (seen (setD (one 0x00E0) [(0, 0x80), (1000, 0x01)]) fun t => (t.plane.get 0, t.plane.get 1000)) =
    some (0, 0) := by decide +kernel

theorem test_scd : (seen { one 0x00C2 with plane := setPix false (Bytes.zeros 1024) 3 0 true }
    fun t => (t.plane.get 0, t.plane.get 16)) = some (0, 0x10) := by decide +kernel

/-- V-DSP 4, at the pixel's own byte, the last row and the row a wrap would reach. -/
theorem test_scd_no_wrap : (seen { one 0x00CF with ext := true, plane := setPix true (Bytes.zeros 1024) 0 50 true }
    fun t => (t.plane.get 800, t.plane.get 1008, t.plane.get 16)) = some (0, 0, 0) := by decide +kernel

theorem test_scr : (seen { setD (one 0x00FB) [(80, 0xAB), (81, 0xCD)] with ext := true }
    fun t => (t.plane.get 80, t.plane.get 81, t.plane.get 82)) = some (0x0A, 0xBC, 0xD0) := by decide +kernel

theorem test_scr_low : (seen (setD (one 0x00FB) [(7, 0x0F), (300, 0xFF)]) fun t => (t.plane.get 7, t.plane.get 300)) =
    some (0x00, 0xFF) := by decide +kernel

theorem test_scl : (seen (setD (one 0x00FC) [(16, 0x0F), (23, 0xF1)])
    fun t => (t.plane.get 16, t.plane.get 22, t.plane.get 23)) = some (0xF0, 0x0F, 0x10) := by decide +kernel

/-- V-DSP 8 and 10. -/
theorem test_high : (seen (setD (one 0x00FF) [(8, 0x80)]) fun t => (t.ext, getWidth t, getHeight t, getPixel t 64 0)) =
    some (true, 128, 64, some true) := by decide +kernel

theorem test_low : (seen { one 0x00FE with ext := true } fun t => (t.ext, getWidth t)) = some (false, 64) := by decide +kernel

/-- V-DSP 12: wrap on both edges. -/
theorem test_drw_wraps : (seen { setVs ((one 0xD011).writeByte 0x300 0xF0) [(0, 62), (1, 31)] with i := 0x300 }
    fun t => (t.plane.get 248, t.plane.get 255, t.getV 15)) = some (0xC0, 0x03, 0) := by decide +kernel

/-- V-DSP 13 and 14. -/
theorem test_drw_range : (seen { one 0xD00F with i := 0xFF2 } (·.out)) = some (.halt .memoryOutOfBounds) ∧
    (seen { one 0xD00F with i := 0xFF1 } (·.out)) = some .cont := by decide +kernel

/-- V-DSP 18: the 16 x 16 sprite in low resolution. -/
theorem test_drwExt : (seen { setVs ((one 0xD010).writeBytes 0x300 [0x80, 0x01]) [(0, 60)] with i := 0x300 }
    fun t => (t.plane.get 7, t.plane.get 1, t.getV 15)) = some (0x08, 0x10, 0) := by decide +kernel

/-- V-DSP 15 and 16. -/
theorem test_drwExt_range : (seen { one 0xD000 with i := 0xFE1 } (·.out)) = some (.halt .memoryOutOfBounds) ∧
    (seen { one 0xD000 with i := 0xFE0 } (·.out)) = some .cont := by decide +kernel

/-- V-DSP 20. -/
theorem test_getPixel_refused : getPixel (one 0x0000) 64 0 = none := by decide +kernel

/-! ## Index register and memory transfer (95_test_vectors.md V-IDX) -/

theorem test_ldI : (seen (one 0xA200) (·.i)) = some 0x200 := by decide +kernel

theorem test_addI_wraps : (seen { setVs (one 0xF01E) [(0, 2), (15, 9)] with i := 0xFFFF } fun t => (t.i, t.getV 15)) =
    some (0x0001, 9) := by decide +kernel

theorem test_ldF : (seen (setVs (one 0xF029) [(0, 0x0A)]) (·.i)) = some 0x32 := by decide +kernel

theorem test_ldF_not_masked : (seen (setVs (one 0xF029) [(0, 0xFF)]) (·.i)) = some 0x4FB := by decide +kernel

theorem test_ldHF : (seen (setVs (one 0xF030) [(0, 0x0F)]) (·.i)) = some 0xE6 := by decide +kernel

theorem test_ldB : (seen { setVs (one 0xF033) [(0, 0xFF)] with i := 0xFFD }
    fun t => (t.readByte 0xFFD, t.readByte 0xFFE, t.readByte 0xFFF, t.i)) = some (2, 5, 5, 0xFFD) := by decide +kernel

theorem test_ldB_range : (seen { setVs (one 0xF033) [(0, 0xFF)] with i := 0xFFE } fun t => (t.out, t.readByte 0xFFE)) =
    some (.halt .memoryOutOfBounds, 0) := by decide +kernel

theorem test_storeRegs : (seen { setVs (one 0xF155) [(0, 1), (1, 2)] with i := 0x400, inc := true }
    fun t => (t.readByte 0x400, t.readByte 0x401, t.i)) = some (1, 2, 0x402) := by decide +kernel

/-- V-IDX 15 and 16. -/
theorem test_storeRegs_range : (seen { one 0xFF55 with i := 0xFF0 } (·.out)) = some .cont ∧
    (seen { one 0xFF55 with i := 0xFF1 } (·.out)) = some (.halt .memoryOutOfBounds) := by decide +kernel

theorem test_loadRegs : (seen { (one 0xF265).writeBytes 0x300 [1, 2, 3] with i := 0x300 }
    fun t => (t.getV 0, t.getV 1, t.getV 2, t.getV 3, t.i)) = some (1, 2, 3, 0, 0x300) := by decide +kernel

/-- V-IDX 19: the two bytes of a pushed entry are ordinary memory. -/
theorem test_loadRegs_of_stack : (seen { (one 0xF165).writeBytes 0xEA2 [0x04, 0x02] with i := 0xEA2 }
    fun t => (t.getV 0, t.getV 1)) = some (0x04, 0x02) := by decide +kernel

theorem test_togi : (seen (one 0x00FA) (·.inc)) = some true ∧ (seen { one 0x00FA with inc := true } (·.inc)) = some false := by
  decide +kernel

/-! ## Keys and timers (95_test_vectors.md V-KEY) -/

theorem test_skp : (seen (setVs (oneKeys 0x1000 0xE59E) [(5, 0x0C)]) (·.pc)) = some 0x204 ∧
    (seen (setVs (one 0xE59E) [(5, 0x0C)]) (·.pc)) = some 0x202 := by decide +kernel

theorem test_skp_range : (seen (setVs (one 0xE09E) [(0, 0x10)]) fun t => (t.out, t.pc)) =
    some (.halt .keyOutOfRange, 0x200) := by decide +kernel

theorem test_sknp : (seen (setVs (one 0xE5A1) [(5, 0x0C)]) (·.pc)) = some 0x204 := by decide +kernel

theorem test_sknp_range : (seen (setVs (one 0xE0A1) [(0, 0xFF)]) (·.out)) = some (.halt .keyOutOfRange) := by decide +kernel

theorem test_ldVxK_waits : (seen (one 0xF00A) fun t => (t.pc, t.out, t.getV 0)) = some (0x200, .cont, 0) := by decide +kernel

/-- Keys 3 and 9 down, under both values of FX0A_WRITES_KEY. -/
theorem test_ldVxK_pressed :
    (seen (oneKeys 0x0208 0xF00A) fun t => (t.pc, t.getV 0)) = some (0x202, 0) ∧
    (seen (loadedWith { testParams with fx0aWritesKey := true } 0x0208 [0xF0, 0x0A]) fun t => (t.pc, t.getV 0)) =
      some (0x202, 3) := by decide +kernel

theorem test_ldVxDt : (seen { one 0xF107 with dt := 0x20, ph := 3 } (·.getV 1)) = some 0x20 := by decide +kernel

theorem test_ldVxDt_after_tick : (seen { one 0xF107 with dt := 1, ph := 15 } (·.getV 1)) = some 0 := by decide +kernel

theorem test_ldDtVx : (seen (setVs (one 0xF015) [(0, 2)]) (·.dt)) = some 2 := by decide +kernel

theorem test_ldStVx : (seen (setVs (one 0xF418) [(4, 0x10)]) fun t => (t.st, shouldEmitTone t)) = some (0x10, true) := by
  decide +kernel

theorem test_ldStVx_zero : (seen { one 0xF018 with st := 5 } fun t => (t.st, shouldEmitTone t)) = some (0, false) := by
  decide +kernel

/-! ## The cycle (95_test_vectors.md V-KEY 13, V-CYC 10, W2) -/

/-- The period of a cycle is that of `EXT` before its instruction; an unknown opcode keeps the tick. -/
theorem test_tick_period : (seen { one 0x00FF with ph := 9, dt := 5 } fun t => (t.ph, t.ext, t.dt)) = some (10, true, 5) ∧
    (seen { loaded [0x12, 0x00] with ph := 10, dt := 5, ext := true } fun t => (t.ph, t.dt)) = some (0, 4) ∧
    (seen { loaded [0x5F, 0xF1] with ph := 15, dt := 1 } fun t => (t.out, t.ph, t.dt, t.pc)) =
      some (.halt .unknownOpcode, 0, 0, 0x200) := by decide +kernel

theorem test_advance_before_load : (seen (State.constructed { testParams with
    glyphImage := (Bytes.zeros 240).set 0 0xF0 |>.set 1 0x90 }) fun t => (t.out, t.pc)) =
    some (.halt .unknownOpcode, 0) := by decide +kernel

theorem test_load_size :
    (loadProgram (List.replicate 3231 0) (State.constructed testParams)).1 = .ok ∧
    (loadProgram (List.replicate 3232 0) (State.constructed testParams)).1 = .programTooLarge := by decide +kernel

/-! ## Witnesses: states and operands that meet the hypotheses of the statements, clause by clause at their boundaries -/

/-- The next state of an instruction. -/
def execNext (i : Instr) (s : State) : State := nextOf (exec i s) s

/-- The next state of an Advance. -/
def stepNext (s : State) : State := nextOf (step s) s

theorem execs {i : Instr} {s : State} (h : isNext (exec i s) = true) : exec i s = .next (execNext i s) :=
  eq_next_of_isNext s h

theorem steps {s : State} (h : isNext (step s) = true) : step s = .next (stepNext s) := eq_next_of_isNext s h

theorem witness_DecodeOfEncodeIsInstr : (Instr.drw 1 2 15).wellFormed = true ∧ (Instr.sys 0x0F9).wellFormed = true := by decide

theorem witness_EncodeOfDecodeIsOpcode : decodeOpcode 0x00F9 = some (.sys 0x0F9) := by decide

theorem witness_DecodeTakesHeaviestRow :
    decodeOpcode 0x00E0 = some .cls ∧
    (∃ r ∈ opcodeTable, r.matchesOp 0x00E0 = true ∧ r ≠ rowOf .cls) ∧
    (∃ r ∈ opcodeTable, ∃ r' ∈ opcodeTable, r.matchesOp 0xD120 = true ∧ r'.matchesOp 0xD120 = true ∧ r ≠ r') ∧
    (∃ r ∈ opcodeTable, ∃ r' ∈ opcodeTable,
      r.matchesOp 0x8014 = true ∧ r'.matchesOp 0x8014 = true ∧ r.weight = r'.weight) ∧
    (0xD120#16 : Opcode).toNat / 4096 = 0xD ∧ (∃ r ∈ opRows0, r.matchesOp 0x00FF = true) := by decide +kernel

theorem witness_UnknownOpcodesAreTheListedSet :
    (one 0x5121).pc.toNat < 0x200 + (one 0x5121).plen.toNat ∧ fetchOpcode (one 0x5121) = some 0x5121 ∧
    decodeOpcode 0x5121 = none := by decide +kernel

theorem witness_StepRunsDecodedInstruction :
    (Instr.ldImm 0 0x0A).wellFormed = true ∧ (one 0x600A).pc.toNat < 0x200 + (one 0x600A).plen.toNat ∧
    (one 0x600A).pc.toNat + 1 < 4096 ∧
    [(one 0x600A).readByte (one 0x600A).pc.toNat, (one 0x600A).readByte ((one 0x600A).pc.toNat + 1)] =
      encodeBytes (.ldImm 0 0x0A) := by decide +kernel

/-- The last address of a program of three bytes, and the one past it (V-CYC 11). -/
theorem witness_EndOfProgramHaltsBeforeFetch :
    (∃ s : State, s.pc.toNat ≥ 0x200 + s.plen.toNat) ∧
    ∃ s t : State, s.pc.toNat + 1 = 0x200 + s.plen.toNat ∧ step s = .next t :=
  ⟨⟨{ loaded [0x60, 0x0A, 0x12] with pc := 0x203 }, by decide +kernel⟩,
    { loaded [0x60, 0x0A, 0x12] with pc := 0x202 }, _, by decide +kernel, steps (by decide +kernel)⟩

theorem witness_NextPcFollowsTable : ∃ s t : State,
    s.out = .cont ∧ exec (.seImm 1 0) s = .next t ∧ t.halted = false ∧ t.pc = s.pc + 4 :=
  ⟨one 0x3100, _, by decide +kernel, execs (by decide +kernel), by decide +kernel, by decide +kernel⟩

theorem witness_HaltKeepsOnlyTickAndRepeats : ∃ s t : State, step s = .next t ∧ t.out = .halt .memoryOutOfBounds :=
  ⟨{ one 0xF033 with i := 0xFFE }, _, steps (by decide +kernel), by decide +kernel⟩

/-- Every reason occurs, at the boundary of its condition. -/
theorem witness_HaltReasonsHaveTheirConditions :
    (∀ r ∈ [HaltReason.endOfProgram, .unknownOpcode, .memoryOutOfBounds, .stackOverflow, .stackUnderflow, .keyOutOfRange],
      ∃ s t : State, step s = .next t ∧ t.out = .halt r) := by
  simp only [List.mem_cons, List.not_mem_nil, or_false, forall_eq_or_imp, forall_eq]
  exact ⟨⟨loaded [], _, steps (by decide +kernel), by decide +kernel⟩,
    ⟨one 0x5121, _, steps (by decide +kernel), by decide +kernel⟩,
    ⟨{ one 0xD00F with i := 0xFF2 }, _, steps (by decide +kernel), by decide +kernel⟩,
    ⟨{ one 0x2200 with sp := 175 }, _, steps (by decide +kernel), by decide +kernel⟩,
    ⟨one 0x00EE, _, steps (by decide +kernel), by decide +kernel⟩,
    ⟨setVs (one 0xE09E) [(0, 0x10)], _, steps (by decide +kernel), by decide +kernel⟩⟩

theorem witness_StatusTellsWhatTheCycleDid :
    (∃ s t : State, step s = .next t ∧ t.out = .exitRequest) ∧ ∃ s t : State, step s = .next t ∧ t.out = .cont :=
  ⟨⟨one 0x00FD, _, steps (by decide +kernel), by decide +kernel⟩,
    ⟨one 0x00E1, _, steps (by decide +kernel), by decide +kernel⟩⟩

theorem witness_OnlyNamedInstructionsReadInputs :
    (∃ s t : State, step s = .next t) ∧ (∃ (i : Instr) (s t : State), exec i s = .next t) ∧
    (∀ x, Instr.rnd 0 1 ≠ .skp x ∧ Instr.rnd 0 1 ≠ .sknp x ∧ Instr.rnd 0 1 ≠ .ldVxK x) ∧
    ∀ x nn, Instr.skp 0 ≠ .rnd x nn :=
  ⟨⟨one 0xC001, _, steps (by decide +kernel)⟩, ⟨.rnd 0 1, one 0xC001, _, execs (by decide +kernel)⟩, by decide, by simp⟩

/-- One instruction that none of the clauses names, and a store that leaves `I` because `INC` = 0. -/
theorem witness_OnlyNamedWritersChangeState :
    (∃ s t : State, exec (.ldImm 1 2) s = .next t) ∧ (∃ s t : State, exec (.storeRegs 1) s = .next t ∧ s.inc = false) :=
  ⟨⟨one 0x6102, _, execs (by decide +kernel)⟩,
    ⟨{ one 0xF155 with i := 0x400 }, _, execs (by decide +kernel), by decide +kernel⟩⟩

theorem witness_OnlyDestinationRegistersChange :
    (∃ s t : State, exec (.addReg 0 1) s = .next t ∧ ¬ writesReg s 1 (.addReg 0 1)) ∧
    ∃ s t : State, exec (.loadRegs 2) s = .next t ∧ ¬ writesReg s 3 (.loadRegs 2) :=
  ⟨⟨one 0x8014, _, execs (by decide +kernel), by simp [writesReg]⟩,
    ⟨{ one 0xF265 with i := 0x300 }, _, execs (by decide +kernel), by simp [writesReg]⟩⟩

/-- The bytes just below and just above each store. -/
theorem witness_StoresTouchOnlyTheirBytes :
    (∃ s t : State, exec (.ldB 0) s = .next t ∧ 0x2FF < s.i.toNat ∧ s.i.toNat + 3 ≤ 0x303) ∧
    (∃ s t : State, exec (.storeRegs 15) s = .next t ∧ 0x2FF < s.i.toNat ∧ s.i.toNat + 16 ≤ 0x310) ∧
    (∃ s t : State, exec (.call 0x200) s = .next t ∧ 0xFFD < 0xEA0 + 2 * (s.sp.toNat + 1)) :=
  ⟨⟨{ one 0xF033 with i := 0x300 }, _, execs (by decide +kernel), by decide +kernel⟩,
    ⟨{ one 0xFF55 with i := 0x300 }, _, execs (by decide +kernel), by decide +kernel⟩,
    ⟨{ one 0x2200 with sp := 174 }, _, execs (by decide +kernel), by decide +kernel⟩⟩

theorem witness_IncGovernsIndexAdvance :
    (∃ s t u : State, exec .togi s = .next t ∧ exec .togi t = .next u) ∧
    (∃ s : State, s.i.toNat + (15 + 1) ≤ 4096 ∧ s.inc = true ∧ s.i = 0xFF0) ∧
    (∃ s : State, s.i.toNat + (0 + 1) ≤ 4096 ∧ s.inc = false ∧ s.i = 0xFFF) :=
  ⟨⟨one 0x00FA, _, _, execs (by decide +kernel), execs (by decide +kernel)⟩,
    ⟨{ one 0xFF55 with i := 0xFF0, inc := true }, by decide +kernel⟩, ⟨{ one 0xF055 with i := 0xFFF }, by decide +kernel⟩⟩

/-- The last count that does not reach the period, and the first that does, in both resolutions. -/
theorem witness_TimerTickCountsDown :
    (∃ s : State, s.ext = false ∧ s.ph + 1 = 15) ∧ (∃ s : State, s.ext = false ∧ s.ph + 1 = 16) ∧
    (∃ s : State, s.ext = true ∧ s.ph + 1 = 7) ∧ (∃ s : State, s.ext = true ∧ s.ph + 1 = 8) :=
  ⟨⟨{ one 0 with ph := 14 }, rfl, rfl⟩, ⟨{ one 0 with ph := 15 }, rfl, rfl⟩, ⟨{ one 0 with ph := 6, ext := true }, rfl, rfl⟩,
    ⟨{ one 0 with ph := 7, ext := true }, rfl, rfl⟩⟩

/-- A run of one period that jumps to itself, in low and in high resolution, from DT = 3 and PH = 0. -/
def loop (ext : Bool) : State := { loaded [0x12, 0x00] with ext := ext, dt := 3 }

theorem witness_TimersFallOncePerPeriod : ∀ e : Bool,
    (∀ k, k < Config.timerPeriod e →
      step (runFrom (loop e) k) = .next (runFrom (loop e) (k + 1)) ∧ (runFrom (loop e) k).ext = e) ∧
    (∀ k, k < Config.timerPeriod e → cycleInstr (runFrom (loop e) k) = some (.jp 0x200)) ∧ (loop e).ph = 0 := by
  have h : ∀ e : Bool, ∀ k, k < Config.timerPeriod e → isNext (step (runFrom (loop e) k)) = true ∧
      (runFrom (loop e) k).ext = e ∧ cycleInstr (runFrom (loop e) k) = some (.jp 0x200) := by decide +kernel
  exact fun e => ⟨fun k hk => ⟨eq_next_of_isNext _ (h e k hk).1, (h e k hk).2.1⟩, fun k hk => (h e k hk).2.2, by cases e <;> rfl⟩

theorem witness_TickPrecedesInstruction : ∃ s t : State, step s = .next t ∧ cycleInstr s = some .high :=
  ⟨{ one 0x00FF with ph := 9, dt := 5 }, _, steps (by decide +kernel), by decide +kernel⟩

theorem witness_StackEntryIsTwoBytes :
    (∃ s : State, s.Inv ∧ s.params.stackEndian = .little) ∧ (∃ s : State, s.Inv ∧ s.params.stackEndian = .big) :=
  ⟨⟨one 0x2200, by decide +kernel⟩, ⟨oneWith { testParams with stackEndian := .big } 0x2200, by decide +kernel⟩⟩

/-- The highest fetch of all: the last byte of the longest program. -/
theorem witness_FetchStaysInsideMemory : ∃ s : State, s.Inv ∧ s.pc.toNat < 0x200 + s.plen.toNat ∧ s.pc.toNat = 0xE9E :=
  ⟨{ loaded [0x12, 0x00] with plen := 3231, pc := 0xE9E }, by decide +kernel⟩

theorem witness_RangeCheckPrecedesAnyWrite :
    rangeBytes (.drw 0 0 15) = some 15 ∧ rangeBytes (.drwExt 0 0) = some 32 ∧ rangeBytes (.loadRegs 15) = some 16 ∧
    (∃ s : State, s.i.toNat + 15 = 4097) ∧ ∃ s : State, s.i.toNat + 32 = 4096 :=
  ⟨rfl, rfl, rfl, ⟨{ one 0 with i := 0xFF2 }, rfl⟩, ⟨{ one 0 with i := 0xFE0 }, rfl⟩⟩

theorem witness_StoreIsSeenByNextFetch :
    (∃ s t : State, s.Inv ∧ s.i = s.pc + 2 ∧ s.pc.toNat + 5 ≤ 4096 ∧ exec (.ldB 0) s = .next t) ∧
    ∃ s t : State, s.Inv ∧ s.i = s.pc + 2 ∧ s.pc.toNat + 5 = 4096 ∧ s.pc.toNat + 2 + (1 + 1) ≤ 4096 ∧
      exec (.storeRegs 1) s = .next t :=
  ⟨⟨{ one 0xF033 with i := 0x202 }, _, by decide +kernel, by decide +kernel, by decide +kernel, execs (by decide +kernel)⟩,
    ⟨{ one 0xF155 with pc := 0xFFB, i := 0xFFD }, _, by decide +kernel, by decide +kernel, by decide +kernel, by decide +kernel,
      execs (by decide +kernel)⟩⟩

theorem witness_RetPopsAndGoesPastTheCall :
    (∃ s : State, s.sp = 0) ∧ (∃ s : State, s.sp ≠ 0 ∧ s.sp.toNat ≤ 175 ∧ s.sp = 1) ∧
    ∃ s : State, s.sp ≠ 0 ∧ s.sp.toNat ≤ 175 ∧ s.sp = 175 :=
  ⟨⟨one 0x00EE, rfl⟩, ⟨{ one 0x00EE with sp := 1 }, by decide +kernel⟩, ⟨{ one 0x00EE with sp := 175 }, by decide +kernel⟩⟩

theorem witness_CallPushesItsOwnAddress :
    (∃ s : State, s.sp.toNat = 175) ∧ (∃ s : State, s.Inv ∧ s.sp.toNat < 175 ∧ s.sp = 174) :=
  ⟨⟨{ one 0x2200 with sp := 175 }, rfl⟩, ⟨{ one 0x2200 with sp := 174 }, by decide +kernel⟩⟩

theorem witness_RetUndoesCall : ∃ s t u : State, s.Inv ∧ s.sp.toNat < 175 ∧ exec (.call 0x20A) s = .next t ∧
    u.sp = t.sp ∧ u.params = t.params ∧ u.readByte (0xEA0 + 2 * t.sp.toNat) = t.readByte (0xEA0 + 2 * t.sp.toNat) ∧
    u.readByte (0xEA0 + 2 * t.sp.toNat + 1) = t.readByte (0xEA0 + 2 * t.sp.toNat + 1) ∧ u ≠ t :=
  ⟨one 0x220A, _, (execNext (.call 0x20A) (one 0x220A)).setV 3 9, by decide +kernel, by decide +kernel,
    execs (by decide +kernel), rfl, rfl, rfl, rfl, fun h => by
      have := congrArg (·.getV 3) h
      revert this
      decide +kernel⟩

theorem witness_JumpsGoToTheirTarget :
    (∃ s : State, (0x204#12 : BitVec 12).toNat ≥ 0x200 + s.plen.toNat) ∧
    ∃ s : State, (0x200#12 : BitVec 12).toNat + (s.getV 0).toNat ≥ 0x200 + s.plen.toNat :=
  ⟨⟨one 0x1204, by decide +kernel⟩, ⟨setVs (one 0xB200) [(0, 4)], by decide +kernel⟩⟩

theorem witness_ExitRequestOnlySignals : ∃ s t : State, exec .exitReq s = .next t :=
  ⟨one 0x00FD, _, execs (by decide +kernel)⟩

/-- The last pixel of each resolution. -/
theorem witness_PixelIsOneBit : (63 < Config.width false ∧ 31 < Config.height false) ∧
    127 < Config.width true ∧ 63 < Config.height true := by decide

theorem witness_PlaneMeaningFollowsMode :
    (∃ s t : State, s.ext = false ∧ exec (.scd 1) s = .next t) ∧ (∃ s t : State, exec .cls s = .next t) ∧
    (∃ s t : State, exec .low s = .next t ∨ exec .high s = .next t) ∧ 127 < 128 ∧ 15 < 16 :=
  ⟨⟨one 0x00C1, _, by decide +kernel, execs (by decide +kernel)⟩, ⟨one 0x00E0, _, execs (by decide +kernel)⟩,
    ⟨one 0x00FE, _, .inl (execs (by decide +kernel))⟩, by decide, by decide⟩

/-- A 16 x 16 sprite of one set bit, its last, at the last pixel of the low resolution: it lands on (14, 14). -/
theorem witness_DrawInvertsPixelsUnderSetBits :
    16 ≤ Config.height false ∧ 16 ≤ Config.width false ∧
    (∃ r c, r < 16 ∧ c < 16 ∧ (decide (r = 15) && decide (c = 15)) = true ∧ landsOn false 63 31 r c 14 14) ∧
    ¬ ∃ r c, r < 16 ∧ c < 16 ∧ (decide (r = 15) && decide (c = 15)) = true ∧ landsOn false 63 31 r c 15 14 := by
  refine ⟨by decide, by decide, ⟨15, 15, by decide, by decide, rfl, by unfold landsOn; decide⟩, ?_⟩
  rintro ⟨r, c, -, -, h, hl⟩
  simp only [Bool.and_eq_true, decide_eq_true_eq] at h
  obtain ⟨rfl, rfl⟩ := h
  exact absurd hl (by unfold landsOn; decide)

theorem witness_DrawingTwiceRestoresThePlane :
    landsOn false 63 31 15 15 14 14 ∧ landsOn true 255 255 15 15 14 14 := by unfold landsOn; decide

theorem witness_DrawNormalSprite : (15 : Fin 16) ≠ 0 ∧
    (∃ s : State, s.i.toNat + (15 : Fin 16).val = 4097) ∧ ∃ s : State, s.i.toNat + (15 : Fin 16).val = 4096 :=
  ⟨by decide, ⟨{ one 0xD00F with i := 0xFF2 }, rfl⟩, ⟨{ one 0xD00F with i := 0xFF1 }, rfl⟩⟩

theorem witness_DrawExtendedSprite : (∃ s : State, s.i.toNat + 32 = 4097) ∧ ∃ s : State, s.i.toNat + 32 = 4096 :=
  ⟨⟨{ one 0xD000 with i := 0xFE1 }, rfl⟩, ⟨{ one 0xD000 with i := 0xFE0 }, rfl⟩⟩

theorem witness_ScrollDownMovesRows : 127 < Config.width (one 0x00C1 : State).ext + 64 ∧
    63 < Config.width (one 0x00C1).ext ∧ 31 < Config.height (one 0x00C1).ext ∧
    planeBytes (one 0x00C1).ext ≤ 256 := by decide +kernel

theorem witness_ScrollSidewaysMovesColumns : 127 < Config.width ({ one 0x00FB with ext := true } : State).ext ∧
    63 < Config.height ({ one 0x00FB with ext := true } : State).ext := by decide +kernel

theorem witness_ClearAndModeInstructions :
    (∃ s t : State, exec .low s = .next t ∧ t.ph + 1 = 15) ∧ (∃ s t : State, exec .low s = .next t ∧ t.ph + 1 = 16) ∧
    (∃ s t : State, exec .high s = .next t ∧ t.ph + 1 = 7) ∧ (∃ s t : State, exec .high s = .next t ∧ t.ph + 1 = 8) :=
  ⟨⟨{ one 0x00FE with ph := 14 }, _, execs (by decide +kernel), rfl⟩, ⟨{ one 0x00FE with ph := 15 }, _, execs (by decide +kernel), rfl⟩,
    ⟨{ one 0x00FF with ph := 6 }, _, execs (by decide +kernel), rfl⟩, ⟨{ one 0x00FF with ph := 7 }, _, execs (by decide +kernel), rfl⟩⟩

theorem witness_HostQueriesReadTheState :
    (∃ s : State, s.ext = false ∧ 63 < Config.width s.ext ∧ 31 < Config.height s.ext ∧
      ¬ (64 < Config.width s.ext ∧ 0 < Config.height s.ext)) ∧ ∃ s : State, s.ext = true ∧ 127 < Config.width s.ext :=
  ⟨⟨one 0, by decide +kernel⟩, ⟨{ one 0 with ext := true }, by decide +kernel⟩⟩

theorem witness_WriteOrderMattersOnlyForVf :
    resultAndFlag (setVs (one 0x8014) [(0, 0xFF), (1, 1)]) (.addReg 0 1) = some (0, 0x00, true) ∧
    resultAndFlag (setVs (one 0x8015) [(0, 4), (1, 5)]) (.subReg 0 1) = some (0, 0xFF, false) ∧
    resultAndFlag (setVs (one 0x8017) [(0, 5), (1, 3)]) (.subnReg 0 1) = some (0, 0xFE, false) ∧
    resultAndFlag (setVs (one 0x8006) [(0, 5)]) (.shr 0 0) = some (0, 2, true) ∧
    resultAndFlag (setVs (one 0x8FFE) [(15, 0x40)]) (.shl 15 15) = some (15, 0x80, false) ∧
    (oneWith { testParams with vfOrder := .resultLast } 0x8FFE).params.vfOrder = .resultLast := by decide +kernel

theorem witness_BcdStoresDecimalDigits : (∃ s : State, s.i.toNat + 3 = 4097) ∧
    ∃ s : State, s.Inv ∧ s.i.toNat + 3 = 4096 :=
  ⟨⟨{ one 0xF033 with i := 0xFFE }, rfl⟩, ⟨{ one 0xF033 with i := 0xFFD }, by decide +kernel⟩⟩

theorem witness_StoreRegsWritesV0ToVx : (∃ s : State, s.i.toNat + (15 : Fin 16).val + 1 = 4097) ∧
    ∃ s : State, s.Inv ∧ s.i.toNat + (15 : Fin 16).val + 1 = 4096 :=
  ⟨⟨{ one 0xFF55 with i := 0xFF1 }, rfl⟩, ⟨{ one 0xFF55 with i := 0xFF0 }, by decide +kernel⟩⟩

theorem witness_LoadRegsReadsV0ToVx : (∃ s : State, s.i.toNat + (15 : Fin 16).val + 1 = 4097) ∧
    ∃ s : State, s.i.toNat + (15 : Fin 16).val + 1 = 4096 :=
  ⟨⟨{ one 0xFF65 with i := 0xFF1 }, rfl⟩, ⟨{ one 0xFF65 with i := 0xFF0 }, rfl⟩⟩

theorem witness_LoadRegsUndoesStoreRegs : ∃ s t u : State, s.Inv ∧ s.i.toNat + (1 : Fin 16).val + 1 ≤ 4096 ∧
    exec (.storeRegs 1) s = .next t ∧ u.mem = t.mem ∧ u.params = t.params ∧ u.i = s.i ∧ u.getV 0 ≠ s.getV 0 :=
  ⟨setVs { one 0xF155 with i := 0x400 } [(0, 1), (1, 2)], _,
    (execNext (.storeRegs 1) (setVs { one 0xF155 with i := 0x400 } [(0, 1), (1, 2)])).setV 0 9, by decide +kernel,
    by decide +kernel, execs (by decide +kernel), rfl, rfl, rfl, by decide +kernel⟩

theorem witness_KeySkipsTestTheSnapshot : (∃ s : State, (s.getV 0).toNat = 16) ∧ ∃ s : State, (s.getV 0).toNat = 15 :=
  ⟨⟨setVs (one 0xE09E) [(0, 16)], by decide +kernel⟩, ⟨setVs (one 0xE09E) [(0, 15)], by decide +kernel⟩⟩

theorem witness_WaitForKeyPollsTheSnapshot :
    (∃ s : State, s.input.keys = 0) ∧
    (∃ s : State, s.input.keys.getLsbD 15 = true ∧ ∀ j, j < 15 → s.input.keys.getLsbD j = false) ∧
    ∃ s : State, cycleInstr s = some (.ldVxK 0) ∧ (sampleInputs s).input.keys = 0 :=
  ⟨⟨one 0xF00A, by decide +kernel⟩, ⟨sampleInputs (oneKeys 0x8000 0xF00A), by decide +kernel⟩, ⟨one 0xF00A, by decide +kernel⟩⟩

theorem witness_TimerRegistersMove :
    cycleInstr (one 0xF107) = some (.ldVxDt 1) ∧ cycleInstr (one 0xF015) = some (.ldDtVx 0) := by decide +kernel

theorem witness_LoadProgramResetsAndCopies :
    (∃ bs : List Byte, 0x200 + bs.length = 0xEA0) ∧ (∃ bs : List Byte, 0x200 + bs.length = 0xEA0 - 1) ∧
    ∃ bs : List Byte, 0x200 + bs.length < 0xEA0 ∧ bs = [] :=
  ⟨⟨List.replicate 3232 0, by rw [List.length_replicate]⟩, ⟨List.replicate 3231 0, by rw [List.length_replicate]⟩, ⟨[], by decide⟩⟩

/-- Legal states: just constructed, just loaded, and the deepest stack with the longest program. -/
theorem witness_StepKeepsStatesLegal :
    (State.constructed testParams).Inv ∧ (one 0xF155).Inv ∧
    ({ one 0x2200 with sp := 175, ph := 15, plen := 3231 } : State).Inv := by decide +kernel

/-- Each stop is reached in the state its condition describes. -/
theorem witness_StopsOnlyOutsideMemory :
    (∃ s : State, s.pc.toNat < 0x200 + s.plen.toNat ∧ 4096 ≤ s.pc.toNat + 1) ∧
    (∃ s : State, s.sp.toNat = 176 ∧ cycleInstr s = some .ret) ∧
    ∃ s : State, s.sp.toNat = 176 ∧ cycleInstr s = some (.call 0x200) :=
  ⟨⟨{ one 0 with plen := 0xFFFF, pc := 0xFFF }, by decide +kernel⟩, ⟨{ one 0x00EE with sp := 176 }, by decide +kernel⟩,
    ⟨{ one 0x2200 with sp := 176 }, by decide +kernel⟩⟩

end Sys2Proof.Tests
end

