-- ==== Sys2Proof/Proofs/State.lean ====
section
/-! PROOFS. The statements about the state (10_state.md): INC and its readers (O16), the fetch under the invariant (O21), the
Advance before any load (O55), and the legal states at reset and after a load (O57). -/

namespace Sys2Proof.Machine

open Sys2Proof.Claims

/-! ## An instruction that does not read INC commutes with changing it (10_state.md R31) -/

/-- The state with INC set to `b` and every other field kept. -/
def State.withInc (s : State) (b : Bool) : State := { s with inc := b }

/-- What an instruction that neither reads nor writes INC satisfies: it commutes with setting INC. -/
def IgnoresInc (i : Instr) : Prop :=
  ∀ (s : State) (b : Bool), exec i (s.withInc b) = mapNext (State.withInc · b) (exec i s)

variable (s : State) (b : Bool)

theorem mapNext_ite (f : State → State) (c : Prop) [Decidable c] (r r' : Result) :
    mapNext f (if c then r else r') = if c then mapNext f r else mapNext f r' := apply_ite ..

theorem guardRange_withInc {n : Nat} {t t' : State} (ht : t' = t.withInc b) :
    guardRange (s.withInc b) n t' = (guardRange s n t).withInc b := by
  rw [ht, guardRange, guardRange, apply_ite (State.withInc · b)]
  rfl

theorem State.skipOnKey_withInc (v : Byte) (d : Bool) :
    (s.withInc b).skipOnKey v d = (s.skipOnKey v d).withInc b := by
  rw [State.skipOnKey, State.skipOnKey, apply_ite (State.withInc · b)]
  rfl

theorem State.writeResultAndFlag_withInc (x : Reg) (rf : Byte × Bool) :
    (s.withInc b).writeResultAndFlag x rf = (s.writeResultAndFlag x rf).withInc b := by
  cases h : s.params.vfOrder <;> simp only [State.writeResultAndFlag, State.withInc, h] <;> rfl

/-- An instruction whose whole effect is the result and flag of 43_alu.md R200, computed without INC, ignores INC. -/
theorem ignoresInc_of_writeResultAndFlag {i : Instr} {x : Reg} {rf : State → Byte × Bool}
    (hexec : ∀ s, exec i s = .next ((s.writeResultAndFlag x (rf s)).advance 2))
    (hrf : ∀ s b, rf (s.withInc b) = rf s) : IgnoresInc i := fun s b => by
  rw [hexec, hexec, hrf, s.writeResultAndFlag_withInc]; rfl

theorem ignoresInc_ret : IgnoresInc .ret := fun s b => by
  simp only [exec, execRet, mapNext_ite]; rfl

theorem ignoresInc_call (nnn : BitVec 12) : IgnoresInc (.call nnn) := fun s b => by
  simp only [exec, execCall, mapNext_ite]; rfl

theorem ignoresInc_ldVxK (x : Reg) : IgnoresInc (.ldVxK x) := fun s b => by
  have hkey : (s.withInc b).lowestKey = s.lowestKey := rfl
  simp only [exec, execLdVxK, hkey]
  cases s.lowestKey with
  | none => rfl
  | some k => cases h : s.params.fx0aWritesKey <;> simp only [State.withInc, h] <;> rfl

/-- Every instruction but 00FA, FX55 and FX65 commutes with setting INC. -/
theorem ignoresInc (i : Instr) (htogi : i ≠ .togi) (hrange : ∀ x, i ≠ .storeRegs x ∧ i ≠ .loadRegs x) :
    IgnoresInc i := by
  cases i with
  | togi => exact absurd rfl htogi
  | storeRegs x => exact absurd rfl (hrange x).1
  | loadRegs x => exact absurd rfl (hrange x).2
  | ret => exact ignoresInc_ret
  | call nnn => exact ignoresInc_call nnn
  | ldVxK x => exact ignoresInc_ldVxK x
  | addReg _ _ | subReg _ _ | shr _ _ | subnReg _ _ | shl _ _ =>
    exact ignoresInc_of_writeResultAndFlag (fun _ => rfl) (fun _ _ => rfl)
  | skp _ | sknp _ => exact fun s b => congrArg Host.Outcome.next (State.skipOnKey_withInc s b _ _)
  | drw _ _ _ | drwExt _ _ | ldB _ => exact fun s b => congrArg Host.Outcome.next (guardRange_withInc s b rfl)
  | cls | scd _ | scr | scl | exitReq | low | high | sys _ | jp _ | seImm _ _ | sneImm _ _ | seReg _ _ | ldImm _ _
  | addImm _ _ | ldReg _ _ | orReg _ _ | andReg _ _ | xorReg _ _ | sneReg _ _ | ldI _ | jpV0 _ | rnd _ _ | ldVxDt _
  | ldDtVx _ | ldStVx _ | addI _ | ldF _ | ldHF _ => exact fun _ _ => rfl

/-- What ignores INC also keeps it: setting INC to its own value sets it in the next state too. -/
theorem inc_of_ignoresInc {i : Instr} (hi : IgnoresInc i) {s t : State} (h : exec i s = .next t) : t.inc = s.inc := by
  have hset : exec i s = mapNext (State.withInc · s.inc) (exec i s) := hi s s.inc
  rw [h] at hset
  have ht : t = t.withInc s.inc := Host.Outcome.next.inj hset
  exact (congrArg State.inc ht :)

/-! ## The instructions that read or write INC (44_index_memory.md R235 to R237) -/

theorem guardRange_inc {n : Nat} {t : State} (h : t.inc = s.inc) : (guardRange s n t).inc = s.inc := by
  rcases guardRange_cases s n t with ⟨-, e⟩ | ⟨-, e⟩ <;> rw [e]
  · rfl
  · exact h

theorem State.indexAfter_of_inc_false (x : Reg) (h : s.inc = false) : s.indexAfter x = s.i := by
  simp [State.indexAfter, h]

theorem State.indexAfter_of_inc_true (x : Reg) (h : s.inc = true) :
    s.indexAfter x = s.i + BitVec.ofNat 16 (x.val + 1) := by
  apply BitVec.eq_of_toNat_eq
  simp [State.indexAfter, h, Nat.add_assoc]

/-- FX55 and FX65 within memory complete with the index `indexAfter` gives. -/
theorem exec_registerRange_index {i : Instr} {x : Reg} (hi : i = .storeRegs x ∨ i = .loadRegs x)
    (hmem : s.i.toNat + (x.val + 1) ≤ Config.memSize) : ∃ t, exec i s = .next t ∧ t.i = s.indexAfter x := by
  have hguard (t : State) : guardRange s (x.val + 1) t = t := if_neg (Nat.not_lt.mpr hmem)
  rcases hi with rfl | rfl
  · exact ⟨_, congrArg Host.Outcome.next (hguard _), rfl⟩
  · exact ⟨_, congrArg Host.Outcome.next (hguard _), rfl⟩

theorem exec_togi : exec .togi s = .next { s with inc := !s.inc, pc := s.pc + 2 } :=
  congrArg Host.Outcome.next (State.advance_eq _ 2)

/-- Twice 00FA is a no-op but for the pc. -/
theorem exec_togi_togi {s t u : State} (ht : exec .togi s = .next t) (hu : exec .togi t = .next u) :
    u = { s with pc := s.pc + 4 } := by
  obtain rfl := Host.Outcome.next.inj ((exec_togi s).symm.trans ht)
  obtain rfl := Host.Outcome.next.inj ((exec_togi _).symm.trans hu)
  simp [BitVec.add_assoc]

/-- Only 00FA changes INC. -/
theorem exec_inc {i : Instr} {s t : State} (htogi : i ≠ .togi) (h : exec i s = .next t) : t.inc = s.inc := by
  by_cases hrange : ∀ x, i ≠ .storeRegs x ∧ i ≠ .loadRegs x
  · exact inc_of_ignoresInc (ignoresInc i htogi hrange) h
  · simp only [not_forall, not_and_or, not_not] at hrange
    obtain ⟨x, rfl | rfl⟩ := hrange <;> obtain rfl := Host.Outcome.next.inj h <;> exact guardRange_inc s rfl

/-! ## Fetching (20_memory.md R59, R62; 40_cycle.md R111, R112) -/

theorem atEndOfProgram_eq_false_iff : atEndOfProgram s = false ↔ s.pc.toNat < 0x200 + s.plen.toNat := by
  simp [atEndOfProgram]

/-- A cycle that fetches an opcode runs it in the state after the tick. -/
theorem step_of_fetchOpcode {op : Opcode} (hend : atEndOfProgram s = false) (hf : fetchOpcode s = some op) :
    step s = runOpcode op (beginCycle s) := by
  simp [step, runCycle, hend, hf]

/-- After Construct the glyph bytes read as GLYPH_IMAGE (10_state.md R37). -/
theorem readByte_constructed (p : Params) {a : Nat} (h : a < Config.glyphBytes) :
    (State.constructed p).readByte a = p.glyphImage.get a := if_pos h

/-- The first Advance after Construct fetches the first two glyph bytes (40_cycle.md R121). -/
theorem fetchOpcode_constructed (p : Params) :
    fetchOpcode (State.constructed p) = some (p.glyphImage.get 0 ++ p.glyphImage.get 1) := by
  rw [← readByte_constructed p (by decide : 0 < Config.glyphBytes),
    ← readByte_constructed p (by decide : 1 < Config.glyphBytes)]
  rfl

/-! ## Legal states between Advances (10_state.md R27, R30, R33, R37) -/

theorem inv_constructed (p : Params) : (State.constructed p).Inv := 
  ⟨Memory.wf_nil, Nat.zero_le _, Nat.zero_lt_succ _, Nat.zero_le _⟩

theorem loadProgram_tooLarge {bytes : List Byte} (h : 0x200 + bytes.length ≥ 0xEA0) :
    loadProgram bytes s = (.programTooLarge, s) := if_pos h

/-- A program that fits stands inside memory, below the stack region, and its length is PLEN. -/
theorem inv_loadProgram_of_fits {bytes : List Byte} (h : 0x200 + bytes.length < 0xEA0) :
    (loadProgram bytes s).2.Inv := by
  rw [loadProgram, if_neg (Nat.not_le.mpr h)]
  obtain ⟨hmem, hsp, hph, -⟩ := inv_constructed s.params
  refine ⟨(State.constructed s.params).wf_writeBytes hmem (by simp only [Config.programStart, Config.memSize]; omega), hsp, hph, ?_⟩
  simp only [BitVec.toNat_ofNat]
  omega

theorem inv_loadProgram {bytes : List Byte} (hs : s.Inv) : (loadProgram bytes s).2.Inv := by
  by_cases h : 0x200 + bytes.length < 0xEA0
  · exact inv_loadProgram_of_fits s h
  · rwa [loadProgram_tooLarge s (Nat.not_lt.mp h)]

end Sys2Proof.Machine

namespace Sys2Proof.Proofs.State

open Sys2Proof Sys2Proof.Machine

/-- Settles O16: what ignores INC commutes with setting it, and so keeps it; FX55 and FX65 are the only readers. -/
theorem incGovernsIndexAdvance : Obligations.IncGovernsIndexAdvance := by
  refine ⟨⟨rfl, fun _ => rfl⟩, fun i s t => exec_inc, exec_togi, fun s t u => exec_togi_togi,
    fun i s b htogi hrange => ignoresInc i htogi hrange s b, fun s x i hi hmem => ?_⟩
  obtain ⟨t, ht, hindex⟩ := exec_registerRange_index s hi hmem
  exact ⟨t, ht, fun h => hindex.trans (s.indexAfter_of_inc_false x h),
    fun h => hindex.trans (s.indexAfter_of_inc_true x h)⟩

/-- Settles O21: PLEN is at most 3231 in a legal state, so a fetched PC is at most 0x200 + 3230. -/
theorem fetchStaysInsideMemory : Obligations.FetchStaysInsideMemory := by
  intro s hs hpc
  have ⟨_, _, _, hplen⟩ := hs
  refine ⟨by omega, by omega, _, fetchOpcode_of_inv s hs ((atEndOfProgram_eq_false_iff s).mpr hpc), ?_⟩
  exact toNat_append_bytes _ _

/-- Settles O55: PC = 0 is below 0x200, and the bytes there are the first two of GLYPH_IMAGE. -/
theorem advanceBeforeLoadRunsGlyphs : Obligations.AdvanceBeforeLoadRunsGlyphs := by
  intro p
  rw [step_of_fetchOpcode _ rfl (fetchOpcode_constructed p)]
  rfl

/-- Settles O57: Construct lists no memory cell, and a load that fits writes inside memory. -/
theorem resetAndLoadGiveLegalStates : Obligations.ResetAndLoadGiveLegalStates :=
  ⟨inv_constructed _, inv_constructed, fun s _ => inv_loadProgram s⟩

end Sys2Proof.Proofs.State
end

