-- ==== Sys2Proof/Proofs/Memory.lean ====
section
/-! PROOFS. The statements about memory and the stack (20_memory.md): the two bytes of a stack entry (O20), the range check of
an access through `I` (O22), and a store into the next instruction's address (O23). -/

namespace Sys2Proof.Machine

open Sys2Proof.Claims

variable (s : State)

/-! ## A stack entry is read back (20_memory.md R58) -/

/-- Every stack entry lies inside memory (10_state.md R27). -/
theorem stackAddr_add_two_le {k : Nat} (hk : stackEntryInMemory k) : stackAddr k + 2 ≤ Config.memSize := by
  have hcap : k ≤ 175 := hk
  simp only [stackAddr, Config.stackStart, Config.memSize]
  omega

theorem State.readByte_stackWrite_in (hm : Memory.wf (resetByte s.params) s.mem) {k j : Nat} (w : Word)
    (hk : stackEntryInMemory k) (hj : j < 2) :
    (s.stackWrite k w).readByte (stackAddr k + j) = (entryBytes s.params.stackEndian w)[j]'(by simpa using hj) :=
  s.readByte_writeBytes_in hm (by simpa using stackAddr_add_two_le hk) _

theorem State.readByte_stackWrite_out {k a : Nat} (w : Word) (h0 : a ≠ stackAddr k) (h1 : a ≠ stackAddr k + 1) :
    (s.stackWrite k w).readByte a = s.readByte a :=
  s.readByte_writeBytes_out _ (by rw [entryBytes_length]; omega)

theorem State.stackRead_stackWrite (hm : Memory.wf (resetByte s.params) s.mem) {k : Nat} (w : Word)
    (hk : stackEntryInMemory k) : (s.stackWrite k w).stackRead k = w := by
  have h0 := s.readByte_stackWrite_in hm w hk (j := 0) (by decide)
  have h1 := s.readByte_stackWrite_in hm w hk (j := 1) (by decide)
  rw [Nat.add_zero] at h0
  rw [State.stackRead, h0, h1]
  exact entryOfBytes_entryBytes _ w

/-! ## The range check (20_memory.md R60) -/

theorem guardRange_of_gt {n : Nat} (t : State) (h : s.i.toNat + n > Config.memSize) :
    guardRange s n t = s.raiseHalt .memoryOutOfBounds := if_pos h

theorem guardRange_of_le {n : Nat} (t : State) (h : s.i.toNat + n ≤ Config.memSize) : guardRange s n t = t :=
  if_neg (Nat.not_lt.mpr h)

theorem State.advance_two_pc : (s.advance 2).pc = s.pc + 2 := by
  rw [State.advance_eq]; rfl

/-- An instruction of R60's table is its range check of that many bytes before an effect that goes on to `A + 2`. -/
theorem exec_of_rangeBytes {i : Instr} {n : Nat} (h : rangeBytes i = some n) :
    ∃ t, exec i s = .next (guardRange s n t) ∧ t.out = s.out ∧ t.pc = s.pc + 2 := by
  cases i with
  | drw _ _ _ | drwExt _ _ | ldB _ | storeRegs _ | loadRegs _ =>
    obtain rfl := Option.some.inj h
    exact ⟨_, rfl, rfl, State.advance_two_pc _⟩
  | _ => cases h

/-! ## A store is seen by the next fetch (20_memory.md R65, R68) -/

/-- The fetch at the address of a store of two bytes or more gives its first two. -/
theorem fetchOpcode_of_writeBytes {t : State} {a : Nat} {bs : List Byte} (hm : Memory.wf (resetByte s.params) s.mem)
    (hlen : 2 ≤ bs.length) (hfit : a + bs.length ≤ Config.memSize) (hpc : t.pc.toNat = a)
    (hread : ∀ c, t.readByte c = (s.writeBytes a bs).readByte c) : fetchOpcode t = some (bs[0] ++ bs[1]) := by
  have h0 := s.readByte_writeBytes_in hm hfit (k := 0) (by omega)
  have h1 := s.readByte_writeBytes_in hm hfit (k := 1) (by omega)
  rw [Nat.add_zero] at h0
  rw [fetchOpcode, if_pos (by omega), hpc, hread, hread, h0, h1]
  rfl

theorem exec_ldB_of_le (x : Reg) (h : s.i.toNat + 3 ≤ Config.memSize) :
    exec (.ldB x) s = .next ((s.writeBytes s.i.toNat (decimalDigits (s.getV x))).advance 2) :=
  congrArg Host.Outcome.next (guardRange_of_le s _ h)

theorem exec_storeRegs_of_le (x : Reg) (h : s.i.toNat + (x.val + 1) ≤ Config.memSize) :
    exec (.storeRegs x) s =
      .next (({ s.writeBytes s.i.toNat (s.regRange x) with i := s.indexAfter x } : State).advance 2) :=
  congrArg Host.Outcome.next (guardRange_of_le s _ h)

theorem State.regRange_getElem (x : Reg) {k : Nat} (hk : k < (s.regRange x).length) :
    (s.regRange x)[k] = s.v.get k := by
  simp [State.regRange]

/-- FX33 with `I` at the next instruction: the next fetch reads the hundreds and the tens. -/
theorem fetchOpcode_of_exec_ldB {t : State} {x : Reg} (hm : Memory.wf (resetByte s.params) s.mem) (hi : s.i = s.pc + 2)
    (hfit : s.i.toNat + 3 ≤ Config.memSize) (h : exec (.ldB x) s = .next t) :
    fetchOpcode t =
      some (BitVec.ofNat 8 ((s.getV x).toNat / 100) ++ BitVec.ofNat 8 ((s.getV x).toNat / 10 % 10)) := by
  obtain rfl := Host.Outcome.next.inj ((exec_ldB_of_le s x hfit).symm.trans h)
  refine fetchOpcode_of_writeBytes s hm (bs := decimalDigits (s.getV x)) (by simp) hfit ?_ fun _ => rfl
  rw [hi, State.advance_two_pc, State.writeBytes_pc]

/-- FX55 with `I` at the next instruction: the next fetch reads V0 and V1. -/
theorem fetchOpcode_of_exec_storeRegs {t : State} {x : Reg} (hm : Memory.wf (resetByte s.params) s.mem)
    (hi : s.i = s.pc + 2) (hx : 1 ≤ x.val) (hfit : s.i.toNat + (x.val + 1) ≤ Config.memSize)
    (h : exec (.storeRegs x) s = .next t) : fetchOpcode t = some (s.getV 0 ++ s.getV 1) := by
  obtain rfl := Host.Outcome.next.inj ((exec_storeRegs_of_le s x hfit).symm.trans h)
  have hlen : 2 ≤ (s.regRange x).length := by rw [State.regRange_length]; omega
  have hbytes : (s.regRange x)[0] ++ (s.regRange x)[1] = s.getV 0 ++ s.getV 1 := by
    rw [State.regRange_getElem, State.regRange_getElem]; rfl
  rw [← hbytes]
  refine fetchOpcode_of_writeBytes s hm hlen (by rwa [State.regRange_length]) ?_ fun _ => rfl
  rw [hi, State.advance_two_pc, State.writeBytes_pc]

end Sys2Proof.Machine

namespace Sys2Proof.Proofs.Memory

open Sys2Proof Sys2Proof.Machine

/-- Settles O20: the two bytes StackWrite stores are `entryBytes` of the value, which STACK_ENDIAN orders. -/
theorem stackEntryIsTwoBytes : Obligations.StackEntryIsTwoBytes := by
  intro s k w hs hk
  obtain ⟨hmem, -⟩ := hs
  have h0 := s.readByte_stackWrite_in hmem w hk (j := 0) (by decide)
  have h1 := s.readByte_stackWrite_in hmem w hk (j := 1) (by decide)
  refine ⟨fun he => ?_, fun he => ?_, s.stackRead_stackWrite hmem w hk, fun a => s.readByte_stackWrite_out w⟩
  · simp only [he] at h0 h1
    exact ⟨h0, h1⟩
  · simp only [he] at h0 h1
    exact ⟨h0, h1⟩

/-- Settles O22: each of the five instructions is a range check before its effect, so a halt keeps the whole state. -/
theorem rangeCheckPrecedesAnyWrite : Obligations.RangeCheckPrecedesAnyWrite := by
  intro s i n hn
  obtain ⟨t, hexec, hout, hpc⟩ := exec_of_rangeBytes s hn
  refine ⟨fun h => ?_, fun h => ⟨t, ?_, hout, hpc⟩⟩
  · rw [hexec, guardRange_of_gt s t h]; rfl
  · rw [hexec, guardRange_of_le s t h]

/-- Settles O23: the store is to `PC + 2`, which does not wrap, and the pc goes there. -/
theorem storeIsSeenByNextFetch : Obligations.StoreIsSeenByNextFetch := by
  intro s t hs hi hpc
  obtain ⟨hmem, -⟩ := hs
  have hindex : s.i.toNat = s.pc.toNat + 2 := by rw [hi]; bv_omega
  exact ⟨fun x => fetchOpcode_of_exec_ldB s hmem hi (by rw [hindex]; exact hpc),
    fun x hx hfit => fetchOpcode_of_exec_storeRegs s hmem hi hx (by rw [hindex]; exact hfit)⟩

end Sys2Proof.Proofs.Memory
end

