-- ==== Sys2Proof/Proofs/Encoding.lean ====
section
/-! PROOFS. The statements about the encoding (30_encoding.md): decode after encode (O1), encode after decode (O2), the
heaviest matching row (O3), and the unknown opcodes (O4). -/

namespace Sys2Proof

/-! ## Decode after encode (R96) -/

/-- The operands 0NNN does not have, as numbers (R88). -/
theorem takenFromSys_iff (nnn : BitVec 12) : takenFromSys nnn ↔
    nnn.toNat = 0x0E0 ∨ nnn.toNat = 0x0EE ∨ nnn.toNat / 16 = 0x0C ∨ (0x0FA ≤ nnn.toNat ∧ nnn.toNat ≤ 0x0FF) := by
  simp [takenFromSys, ← BitVec.toNat_inj]

theorem wellFormed_sys_iff (nnn : BitVec 12) : (Instr.sys nnn).wellFormed = true ↔ ¬ takenFromSys nnn := by
  rw [Instr.wellFormed, Bool.not_eq_true', decide_eq_false_iff_not]

theorem wellFormed_drw_iff (x y : Reg) (n : Fin 16) : (Instr.drw x y n).wellFormed = true ↔ n ≠ 0 := by
  rw [Instr.wellFormed, decide_eq_true_iff]

/-- In group 0 the 12-bit operand is the whole word. -/
theorem toNat_nnn_of_group0 {op : Opcode} (ho : Opcode.o op = 0) : (Opcode.nnn op).toNat = op.toNat := by
  simp only [Opcode.o, Opcode.nnn, BitVec.toNat_ofNat] at ho ⊢
  omega

/-- In group 0 an operand that no other row takes belongs to 0NNN (R88). -/
theorem decodeGroup0_of_not_taken {op : Opcode} (ho : Opcode.o op = 0) (h : ¬ takenFromSys (Opcode.nnn op)) :
    decodeGroup0 op = .sys (Opcode.nnn op) := by
  rw [takenFromSys_iff, toNat_nnn_of_group0 ho] at h
  unfold decodeGroup0
  split
  case h_9 => exact if_neg (by grind)
  all_goals grind

theorem packX_mod_256 {low : Nat} (hl : low < 256) (o : Nat) (x : Reg) : packX o x low % 256 = low := by
  unfold packX; omega

/-- Every well-formed instruction is read back from its word, pattern by pattern (R81, R96). -/
theorem decodeOpcode_encode {i : Instr} (hi : i.wellFormed = true) : decodeOpcode (encode i) = some i := by
  cases i with
  | cls | ret | togi | scr | scl | exitReq | low | high => rfl
  | scd n => revert n; decide
  | sys nnn =>
    obtain ⟨ho, hnnn⟩ := fields_packNNN (by decide : 0 < 16) nnn
    simp only [encode, encodeNat, decodeOpcode, ho]
    rw [decodeGroup0_of_not_taken ho (by rwa [hnnn, ← wellFormed_sys_iff]), hnnn]
  | jp nnn | call nnn | ldI nnn | jpV0 nnn => simp [encode, encodeNat, decodeOpcode, fields_packNNN]
  | seImm x nn | sneImm x nn | ldImm x nn | addImm x nn | rnd x nn => simp [encode, encodeNat, decodeOpcode, fields_packXNN]
  | seReg x y | sneReg x y | drwExt x y => simp [encode, encodeNat, decodeOpcode, fields_packXYN]
  | drw x y n =>
    have hn := (wellFormed_drw_iff x y n).mp hi
    simp [encode, encodeNat, decodeOpcode, fields_packXYN, hn]
  | ldReg x y | orReg x y | andReg x y | xorReg x y | addReg x y | subReg x y | shr x y | subnReg x y | shl x y =>
    simp [encode, encodeNat, decodeOpcode, decodeGroup8, fields_packXYN]
  | skp x | sknp x => simp [encode, encodeNat, decodeOpcode, decodeGroupE, fields_packX, packX_mod_256]
  | ldVxDt x | ldVxK x | ldDtVx x | ldStVx x | addI x | ldF x | ldHF x | ldB x | storeRegs x | loadRegs x =>
    simp [encode, encodeNat, decodeOpcode, decodeGroupF, fields_packX, packX_mod_256]

/-! ## Filling a pattern with an opcode's own fields gives the opcode (R81) -/

section
variable {op : Opcode} {o : Nat}

theorem ofNat_packNNN (ho : Opcode.o op = o) : BitVec.ofNat 16 (packNNN o (Opcode.nnn op)) = op := by
  apply BitVec.eq_of_toNat_eq
  have := op.isLt
  simp only [Opcode.o, Opcode.nnn, packNNN, BitVec.toNat_ofNat] at ho ⊢
  omega

theorem ofNat_packXNN (ho : Opcode.o op = o) : BitVec.ofNat 16 (packXNN o (Opcode.x op) (Opcode.nn op)) = op := by
  apply BitVec.eq_of_toNat_eq
  have := op.isLt
  simp only [Opcode.o, Opcode.x, Opcode.nn, packXNN, BitVec.toNat_ofNat] at ho ⊢
  omega

theorem ofNat_packXYN {n : Nat} (ho : Opcode.o op = o) (hn : (Opcode.n op).val = n) :
    BitVec.ofNat 16 (packXYN o (Opcode.x op) (Opcode.y op) n) = op := by
  apply BitVec.eq_of_toNat_eq
  have := op.isLt
  simp only [Opcode.o, Opcode.x, Opcode.y, Opcode.n, packXYN, BitVec.toNat_ofNat] at ho hn ⊢
  omega

theorem ofNat_packX {low : Nat} (ho : Opcode.o op = o) (hl : op.toNat % 256 = low) :
    BitVec.ofNat 16 (packX o (Opcode.x op) low) = op := by
  apply BitVec.eq_of_toNat_eq
  have := op.isLt
  simp only [Opcode.o, Opcode.x, packX, BitVec.toNat_ofNat] at ho ⊢
  omega

/-! ## Encode after decode (R96) -/

/-- The opcode is the word of the instruction. -/
def IsWordOf (op : Opcode) (i : Instr) : Prop := i.wellFormed = true ∧ encode i = op

theorem isWordOf_decodeGroup0 (ho : Opcode.o op = 0) : IsWordOf op (decodeGroup0 op) := by
  unfold decodeGroup0
  split
  case h_9 =>
    split
    · refine ⟨rfl, BitVec.eq_of_toNat_eq ?_⟩
      simp only [encode, encodeNat, Opcode.n, BitVec.toNat_ofNat]
      omega
    · refine ⟨(wellFormed_sys_iff _).mpr ?_, ofNat_packNNN ho⟩
      rw [takenFromSys_iff, toNat_nnn_of_group0 ho]
      grind
  all_goals exact ⟨rfl, BitVec.eq_of_toNat_eq (Eq.symm ‹_›)⟩

theorem isWordOf_decodeGroup8 (ho : Opcode.o op = 8) : ∀ i ∈ decodeGroup8 op, IsWordOf op i := by
  unfold decodeGroup8
  split
  case h_10 => nofun
  all_goals
    rintro _ ⟨⟩
    exact ⟨rfl, ofNat_packXYN ho ‹_›⟩

theorem isWordOf_decodeGroupE (ho : Opcode.o op = 0xE) : ∀ i ∈ decodeGroupE op, IsWordOf op i := by
  unfold decodeGroupE
  split
  case h_3 => nofun
  all_goals
    rintro _ ⟨⟩
    exact ⟨rfl, ofNat_packX ho ‹_›⟩

theorem isWordOf_decodeGroupF (ho : Opcode.o op = 0xF) : ∀ i ∈ decodeGroupF op, IsWordOf op i := by
  unfold decodeGroupF
  split
  case h_11 => nofun
  all_goals
    rintro _ ⟨⟩
    exact ⟨rfl, ofNat_packX ho ‹_›⟩

/-- By the decoder's arms in order (`h_1` is group 0), those of one pattern together. -/
theorem isWordOf_decodeOpcode : ∀ i ∈ decodeOpcode op, IsWordOf op i := by
  unfold decodeOpcode
  split
  case h_1 ho => rintro _ ⟨⟩; exact isWordOf_decodeGroup0 ho
  case h_2 ho | h_3 ho | h_11 ho | h_12 ho => rintro _ ⟨⟩; exact ⟨rfl, ofNat_packNNN ho⟩
  case h_4 ho | h_5 ho | h_7 ho | h_8 ho | h_13 ho => rintro _ ⟨⟩; exact ⟨rfl, ofNat_packXNN ho⟩
  case h_6 ho | h_10 ho =>
    split
    · next hn => rintro _ ⟨⟩; exact ⟨rfl, ofNat_packXYN ho (congrArg Fin.val hn)⟩
    · nofun
  case h_9 ho => exact isWordOf_decodeGroup8 ho
  case h_14 ho =>
    split
    · next hn => rintro _ ⟨⟩; exact ⟨rfl, ofNat_packXYN ho (congrArg Fin.val hn)⟩
    · next hn => rintro _ ⟨⟩; exact ⟨(wellFormed_drw_iff ..).mpr hn, ofNat_packXYN ho rfl⟩
  case h_15 ho => exact isWordOf_decodeGroupE ho
  case h_16 ho => exact isWordOf_decodeGroupF ho
  case h_17 => nofun

/-! ## A row of the table and its instructions have the same words (R86, R96) -/

variable (op) in
/-- Every word that the row of `i` matches is the encoding of a term of that row. -/
def RowEncodes (i : Instr) : Prop := (rowOf i).matchesOp op = true → ∃ j, rowOf j = rowOf i ∧ encode j = op

section
variable {name : String}

theorem o_of_matchesOp_F000 (ho : o < 16)
    (h : (OpRow.mk name 0xF000 (BitVec.ofNat 16 (o * 4096))).matchesOp op = true) : Opcode.o op = o := by
  have hw := (toNat_and_F000 op).symm.trans ((OpRow.matchesOp_iff ..).mp h)
  rw [toNat_ofNat_of_lt (by omega)] at hw
  unfold Opcode.o; omega

theorem rowEncodes_packNNN {c : BitVec 12 → Instr} {a : BitVec 12}
    (henc : ∀ a, encode (c a) = BitVec.ofNat 16 (packNNN o a)) (ho : o < 16)
    (hrow : ∀ a, rowOf (c a) = ⟨name, 0xF000, BitVec.ofNat 16 (o * 4096)⟩) : RowEncodes op (c a) := fun h =>
  ⟨c (Opcode.nnn op), by rw [hrow, hrow],
    (henc _).trans (ofNat_packNNN (o_of_matchesOp_F000 ho (hrow a ▸ h)))⟩

theorem rowEncodes_packXNN {c : Reg → Byte → Instr} {x : Reg} {a : Byte}
    (henc : ∀ x a, encode (c x a) = BitVec.ofNat 16 (packXNN o x a)) (ho : o < 16)
    (hrow : ∀ x a, rowOf (c x a) = ⟨name, 0xF000, BitVec.ofNat 16 (o * 4096)⟩) : RowEncodes op (c x a) := fun h =>
  ⟨c (Opcode.x op) (Opcode.nn op), by rw [hrow, hrow],
    (henc _ _).trans (ofNat_packXNN (o_of_matchesOp_F000 ho (hrow x a ▸ h)))⟩

theorem rowEncodes_packXYN {c : Reg → Reg → Instr} {x y : Reg} {n : Nat}
    (henc : ∀ x y, encode (c x y) = BitVec.ofNat 16 (packXYN o x y n)) (ho : o < 16) (hn : n < 16)
    (hrow : ∀ x y, rowOf (c x y) = ⟨name, 0xF00F, BitVec.ofNat 16 (o * 4096 + n)⟩) : RowEncodes op (c x y) := by
  intro h
  have hw := (toNat_and_F00F op).symm.trans ((OpRow.matchesOp_iff ..).mp (hrow x y ▸ h))
  rw [toNat_ofNat_of_lt (by omega)] at hw
  exact ⟨c (Opcode.x op) (Opcode.y op), by rw [hrow, hrow],
    (henc _ _).trans (ofNat_packXYN (by unfold Opcode.o; omega) (by simp only [Opcode.n]; omega))⟩

theorem rowEncodes_packX {c : Reg → Instr} {x : Reg} {low : Nat}
    (henc : ∀ x, encode (c x) = BitVec.ofNat 16 (packX o x low)) (ho : o < 16) (hl : low < 256)
    (hrow : ∀ x, rowOf (c x) = ⟨name, 0xF0FF, BitVec.ofNat 16 (o * 4096 + low)⟩) : RowEncodes op (c x) := by
  intro h
  have hw := (toNat_and_F0FF op).symm.trans ((OpRow.matchesOp_iff ..).mp (hrow x ▸ h))
  rw [toNat_ofNat_of_lt (by omega)] at hw
  exact ⟨c (Opcode.x op), by rw [hrow, hrow],
    (henc _).trans (ofNat_packX (by unfold Opcode.o; omega) (by omega))⟩

end

theorem rowEncodes_scd {n : Fin 16} : RowEncodes op (.scd n) := by
  intro h
  have hw : op.toNat / 16 * 16 = 0x00C0 := (toNat_and_FFF0 op).symm.trans ((OpRow.matchesOp_iff ..).mp h)
  refine ⟨.scd (Opcode.n op), rfl, BitVec.eq_of_toNat_eq ?_⟩
  simp only [encode, encodeNat, Opcode.n, BitVec.toNat_ofNat]
  omega

/-- A row that fixes all sixteen bits matches one opcode. -/
theorem rowEncodes_of_mask_FFFF {i : Instr} (hmask : (rowOf i).mask = BitVec.allOnes 16)
    (henc : encode i = (rowOf i).value) : RowEncodes op i := by
  intro h
  refine ⟨i, rfl, henc.trans ?_⟩
  rw [← eq_of_beq h, hmask, BitVec.and_allOnes]

theorem rowEncodes (i : Instr) : RowEncodes op i := by
  cases i with
  | cls | ret | togi | scr | scl | exitReq | low | high => exact rowEncodes_of_mask_FFFF rfl rfl
  | scd n => exact rowEncodes_scd
  | sys a | jp a | call a | ldI a | jpV0 a => exact rowEncodes_packNNN (fun _ => rfl) (by decide) fun _ => rfl
  | seImm x a | sneImm x a | ldImm x a | addImm x a | rnd x a =>
    exact rowEncodes_packXNN (fun _ _ => rfl) (by decide) fun _ _ => rfl
  | drw x y n =>
    exact fun h => ⟨.drw (Opcode.x op) (Opcode.y op) (Opcode.n op), rfl,
      ofNat_packXYN (o_of_matchesOp_F000 (by decide) h) rfl⟩
  | seReg x y | sneReg x y | ldReg x y | orReg x y | andReg x y | xorReg x y | addReg x y | subReg x y | shr x y
  | subnReg x y | shl x y | drwExt x y =>
    exact rowEncodes_packXYN (fun _ _ => rfl) (by decide) (by decide) fun _ _ => rfl
  | skp x | sknp x | ldVxDt x | ldVxK x | ldDtVx x | ldStVx x | addI x | ldF x | ldHF x | ldB x | storeRegs x
  | loadRegs x => exact rowEncodes_packX (fun _ => rfl) (by decide) (by decide) fun _ => rfl

end

/-- One term of each row, in the order of the table. -/
def rowTerms : List Instr :=
  [.cls, .ret, .scd 0, .togi, .scr, .scl, .exitReq, .low, .high, .sys 0,
   .jp 0, .call 0, .seImm 0 0, .sneImm 0 0, .seReg 0 0, .ldImm 0 0, .addImm 0 0,
   .ldReg 0 0, .orReg 0 0, .andReg 0 0, .xorReg 0 0, .addReg 0 0, .subReg 0 0, .shr 0 0, .subnReg 0 0, .shl 0 0,
   .sneReg 0 0, .ldI 0, .jpV0 0, .rnd 0 0, .drw 0 0 0, .drwExt 0 0,
   .skp 0, .sknp 0, .ldVxDt 0, .ldVxK 0, .ldDtVx 0, .ldStVx 0, .addI 0, .ldF 0, .ldHF 0, .ldB 0, .storeRegs 0,
   .loadRegs 0]

theorem map_rowOf_rowTerms : rowTerms.map rowOf = opcodeTable := rfl

/-- Every row is the row of some term. -/
theorem exists_rowOf_eq {r : OpRow} (hr : r ∈ opcodeTable) : ∃ i, rowOf i = r := by
  obtain ⟨i, -, hi⟩ := List.mem_map.mp (map_rowOf_rowTerms ▸ hr)
  exact ⟨i, hi⟩

theorem rowOf_mem_opcodeTable (i : Instr) : rowOf i ∈ opcodeTable := by
  cases i <;> simp [rowOf, opcodeTable, opRows0, opRows1to7, opRows8toD, opRowsEF]

/-- The word of a term lies in the term's row (`Laws.EncodeInRow`). -/
theorem rowOf_matchesOp_encode (i : Instr) : (rowOf i).matchesOp (encode i) = true := by
  cases i with
  | cls | ret | togi | scr | scl | exitReq | low | high => rfl
  | scd n => exact Laws.EncodeInRow.scd n
  | sys a | jp a | call a | ldI a | jpV0 a => exact Laws.EncodeInRow.nnn_inRow _ (by decide) a
  | seImm x a | sneImm x a | ldImm x a | addImm x a | rnd x a => exact Laws.EncodeInRow.nn_inRow _ (by decide) x a
  | drw x y n => exact Laws.EncodeInRow.drw x y n
  | seReg x y | sneReg x y | ldReg x y | orReg x y | andReg x y | xorReg x y | addReg x y | subReg x y | shr x y
  | subnReg x y | shl x y | drwExt x y => exact Laws.EncodeInRow.xy_inRow _ (by decide) (by decide) x y
  | skp x | sknp x | ldVxDt x | ldVxK x | ldDtVx x | ldStVx x | addI x | ldF x | ldHF x | ldB x | storeRegs x
  | loadRegs x => exact Laws.EncodeInRow.x_inRow _ (by decide) (by decide) x

/-! ## The heaviest matching row wins (R86) -/

/-- The words 0NNN gives up go to heavier rows. -/
theorem rowOf_decodeGroup0 (op : Opcode) (nnn : BitVec 12) : rowOf (decodeGroup0 op) = rowOf (.sys nnn) ∨
    (rowOf (.sys nnn)).weight < (rowOf (decodeGroup0 op)).weight := by
  unfold decodeGroup0
  split
  case h_9 =>
    split
    · exact .inr (by decide : (rowOf (.sys 0)).weight < (rowOf (.scd 0)).weight)
    · exact .inl rfl
  all_goals exact .inr (by decide : (rowOf (.sys 0)).weight < OpRow.weight _)

/-- The word of any term, ill formed ones included, is that of an instruction of the same row or of a heavier one. -/
theorem exists_wellFormed_encode (j : Instr) : ∃ i, i.wellFormed = true ∧ encode i = encode j ∧
    (rowOf i = rowOf j ∨ (rowOf j).weight < (rowOf i).weight) := by
  cases j with
  | sys nnn =>
    have ⟨hwf, henc⟩ := isWordOf_decodeGroup0 (fields_packNNN (by decide : 0 < 16) nnn).1
    exact ⟨_, hwf, henc, rowOf_decodeGroup0 _ nnn⟩
  | drw x y n =>
    by_cases hn : n = 0
    · have hweight : (rowOf (.drw 0 0 0)).weight < (rowOf (.drwExt 0 0)).weight := by decide
      exact ⟨.drwExt x y, rfl, by rw [hn]; rfl, .inr hweight⟩
    · exact ⟨.drw x y n, (wellFormed_drw_iff x y n).mpr hn, rfl, .inl rfl⟩
  | _ => exact ⟨_, rfl, rfl, .inl rfl⟩

/-- An opcode that matches a row is decoded, to an instruction of that row or of a heavier one. -/
theorem decodeOpcode_of_matchesOp {op : Opcode} {r : OpRow} (hr : r ∈ opcodeTable) (h : r.matchesOp op = true) :
    ∃ i, decodeOpcode op = some i ∧ (rowOf i = r ∨ r.weight < (rowOf i).weight) := by
  obtain ⟨k, rfl⟩ := exists_rowOf_eq hr
  obtain ⟨j, hjk, rfl⟩ := rowEncodes k h
  obtain ⟨i, hwf, henc, hrow⟩ := exists_wellFormed_encode j
  exact ⟨i, henc ▸ decodeOpcode_encode hwf, hjk ▸ hrow⟩

theorem rowOf_matchesOp_of_decodeOpcode {op : Opcode} {i : Instr} (h : decodeOpcode op = some i) :
    (rowOf i).matchesOp op = true := by
  obtain ⟨-, rfl⟩ := isWordOf_decodeOpcode i h
  exact rowOf_matchesOp_encode i

theorem decodeOpcode_eq_none_iff_no_row (op : Opcode) :
    decodeOpcode op = none ↔ ∀ r ∈ opcodeTable, r.matchesOp op = false := by
  constructor
  · intro hnone r hr
    by_contra hmatch
    obtain ⟨i, hi, -⟩ := decodeOpcode_of_matchesOp hr (Bool.not_eq_false _ ▸ hmatch)
    simp [hnone] at hi
  · intro hrows
    by_contra hsome
    obtain ⟨i, hi⟩ := Option.ne_none_iff_exists'.mp hsome
    simpa [hrows _ (rowOf_mem_opcodeTable i)] using rowOf_matchesOp_of_decodeOpcode hi

/-- Two rows that match one opcode agree on the bits both fix. -/
theorem values_agree_of_matchesOp {op : Opcode} {r r' : OpRow} (h : r.matchesOp op = true) (h' : r'.matchesOp op = true) :
    r.value &&& r'.mask = r'.value &&& r.mask := by
  rw [← eq_of_beq h, ← eq_of_beq h', BitVec.and_assoc, BitVec.and_assoc, BitVec.and_comm r.mask]

/-- Distinct rows of one weight differ in a bit both fix: a check over the pairs of rows. -/
theorem eq_of_weight_eq_of_values_agree : ∀ r ∈ opcodeTable, ∀ r' ∈ opcodeTable,
    r.value &&& r'.mask = r'.value &&& r.mask → r.weight = r'.weight → r = r' := by decide +kernel

theorem opRows0_fix_group : ∀ r ∈ opRows0, r.mask &&& 0xF000 = 0xF000 ∧ r.value &&& 0xF000 = 0 := by decide

theorem group_of_opRows0_matchesOp {op : Opcode} {r : OpRow} (hr : r ∈ opRows0) (h : r.matchesOp op = true) :
    op &&& 0xF000 = 0 := by
  obtain ⟨hmask, hvalue⟩ := opRows0_fix_group r hr
  rw [← hmask, ← BitVec.and_assoc, eq_of_beq h, hvalue]

theorem n_eq_zero_iff (op : Opcode) : Opcode.n op = 0 ↔ op.toNat % 16 = 0 := Fin.ext_iff

theorem decodeOpcode_groupD {op : Opcode} (ho : Opcode.o op = 0xD) : decodeOpcode op =
    if Opcode.n op = 0 then some (.drwExt (Opcode.x op) (Opcode.y op))
    else some (.drw (Opcode.x op) (Opcode.y op) (Opcode.n op)) := by
  simp only [decodeOpcode, ho]

theorem decodeOpcode_eq_drwExt_iff {op : Opcode} (ho : Opcode.o op = 0xD) :
    (∃ x y, decodeOpcode op = some (.drwExt x y)) ↔ op.toNat % 16 = 0 := by
  rw [decodeOpcode_groupD ho, ← n_eq_zero_iff]
  by_cases hn : Opcode.n op = 0 <;> simp [hn]

/-! ## The unknown opcodes (R92) -/

theorem decodeGroup8_eq_none_iff (op : Opcode) :
    decodeGroup8 op = none ↔ op.toNat % 16 ∈ [0x8, 0x9, 0xA, 0xB, 0xC, 0xD, 0xF] := by
  have hn : op.toNat % 16 < 16 := Nat.mod_lt _ (by decide)
  simp only [decodeGroup8, Opcode.n]
  generalize op.toNat % 16 = n at hn
  interval_cases n <;> simp

theorem decodeGroupE_eq_none_iff (op : Opcode) : decodeGroupE op = none ↔ op.toNat % 256 ∉ [0x9E, 0xA1] := by
  unfold decodeGroupE
  split <;> simp_all

theorem decodeGroupF_eq_none_iff (op : Opcode) : decodeGroupF op = none ↔
    op.toNat % 256 ∉ [0x07, 0x0A, 0x15, 0x18, 0x1E, 0x29, 0x30, 0x33, 0x55, 0x65] := by
  unfold decodeGroupF
  split <;> simp_all

theorem decodeOpcode_eq_none_iff (op : Opcode) : decodeOpcode op = none ↔
    (op.toNat / 4096 = 0x5 ∧ op.toNat % 16 ≠ 0) ∨
    (op.toNat / 4096 = 0x8 ∧ op.toNat % 16 ∈ [0x8, 0x9, 0xA, 0xB, 0xC, 0xD, 0xF]) ∨
    (op.toNat / 4096 = 0x9 ∧ op.toNat % 16 ≠ 0) ∨
    (op.toNat / 4096 = 0xE ∧ op.toNat % 256 ∉ [0x9E, 0xA1]) ∨
    (op.toNat / 4096 = 0xF ∧
      op.toNat % 256 ∉ [0x07, 0x0A, 0x15, 0x18, 0x1E, 0x29, 0x30, 0x33, 0x55, 0x65]) := by
  rw [← decodeGroup8_eq_none_iff, ← decodeGroupE_eq_none_iff, ← decodeGroupF_eq_none_iff, ← Opcode.o, ne_eq,
    ← n_eq_zero_iff]
  have ho : Opcode.o op < 16 := by have := op.isLt; unfold Opcode.o; omega
  unfold decodeOpcode
  generalize Opcode.o op = o at ho
  interval_cases o <;> simp [ite_eq_iff]

/-- Whether a word decodes does not depend on its field `x`. -/
theorem decodeOpcode_isNone_congr {op op' : Opcode} (ho : op.toNat / 4096 = op'.toNat / 4096)
    (hnn : op.toNat % 256 = op'.toNat % 256) : (decodeOpcode op).isNone = (decodeOpcode op').isNone := by
  have hn : op.toNat % 16 = op'.toNat % 16 := by omega
  rw [Bool.eq_iff_iff, Option.isNone_iff_eq_none, Option.isNone_iff_eq_none, decodeOpcode_eq_none_iff,
    decodeOpcode_eq_none_iff, ho, hnn, hn]

/-- Counting over `m` blocks of `n` numbers, block by block. -/
theorem countP_range_mul (p : Nat → Bool) (m n : Nat) : (List.range (m * n)).countP p =
    ((List.range m).map fun k => (List.range n).countP fun j => p (k * n + j)).sum := by
  induction m with
  | zero => simp
  | succ m ih =>
    rw [Nat.succ_mul, List.range_add, List.countP_append, ih, List.countP_map, List.range_succ, List.map_append,
      List.sum_append]
    simp [Function.comp_def]

/-- The 4096 words of one major opcode hold each low byte 16 times. -/
theorem countP_unknown_of_major (o : Nat) :
    ((List.range (16 * 256)).countP fun w => (decodeOpcode (BitVec.ofNat 16 (o * 4096 + w))).isNone) =
      16 * (List.range 256).countP fun nn => (decodeOpcode (BitVec.ofNat 16 (o * 4096 + nn))).isNone := by
  have hx : ∀ x ∈ List.range 16,
      ((List.range 256).countP fun nn => (decodeOpcode (BitVec.ofNat 16 (o * 4096 + (x * 256 + nn)))).isNone) =
        (List.range 256).countP fun nn => (decodeOpcode (BitVec.ofNat 16 (o * 4096 + nn))).isNone := by
    intro x hx
    refine List.countP_congr fun nn hnn => ?_
    rw [List.mem_range] at hx hnn
    rw [decodeOpcode_isNone_congr] <;> simp only [BitVec.toNat_ofNat] <;> omega
  rw [countP_range_mul, List.map_congr_left hx, List.map_const', List.sum_replicate, List.length_range, smul_eq_mul]

/-- The count (R92), by the 256 low bytes of each major opcode. -/
theorem countP_unknown :
    ((List.range 65536).countP fun w => (decodeOpcode (BitVec.ofNat 16 w)).isNone) = 17472 := by
  rw [show 65536 = 16 * (16 * 256) from rfl, countP_range_mul,
    List.map_congr_left fun o _ => countP_unknown_of_major o]
  decide +kernel

end Sys2Proof

namespace Sys2Proof.Machine

variable (s : State)

/-! ## The timers after the tick depend on no input (60_exceptions.md R290) -/

@[simp] theorem beginCycle_ph : (beginCycle s).ph = (timerTick s).ph := by simp [beginCycle, timerTick, apply_ite State.ph]
@[simp] theorem beginCycle_dt : (beginCycle s).dt = (timerTick s).dt := by simp [beginCycle, timerTick, apply_ite State.dt]
@[simp] theorem beginCycle_st : (beginCycle s).st = (timerTick s).st := by simp [beginCycle, timerTick, apply_ite State.st]

/-- An Advance that fetches an unknown opcode halts, and keeps only the tick (40_cycle.md R115). -/
theorem step_of_unknownOpcode {op : Opcode} (hpc : s.pc.toNat < 0x200 + s.plen.toNat) (hf : fetchOpcode s = some op)
    (hd : decodeOpcode op = none) : step s = .next ((beginCycle s).raiseHalt .unknownOpcode) := by
  rw [step_of_fetchOpcode s ((atEndOfProgram_eq_false_iff s).mpr hpc) hf, runOpcode, hd]

end Sys2Proof.Machine

namespace Sys2Proof.Proofs.Encoding

open Sys2Proof Sys2Proof.Machine

/-- Settles O1: the fields of the pattern an instruction fills are its operands. -/
theorem decodeOfEncodeIsInstr : Obligations.DecodeOfEncodeIsInstr := fun _ => decodeOpcode_encode

/-- Settles O2: each arm of the decoder fills its own row's pattern with the opcode's fields. -/
theorem encodeOfDecodeIsOpcode : Obligations.EncodeOfDecodeIsOpcode := fun _ => isWordOf_decodeOpcode

/-- Settles O3: a row's words are those of its instructions, and the ill-formed ones belong to a heavier row. -/
theorem decodeTakesHeaviestRow : Obligations.DecodeTakesHeaviestRow := by
  refine ⟨decodeOpcode_eq_none_iff_no_row,
    fun op i hi => ⟨rowOf_mem_opcodeTable i, rowOf_matchesOp_of_decodeOpcode hi, ?_⟩,
    fun op r hr r' hr' h h' => eq_of_weight_eq_of_values_agree r hr r' hr' (values_agree_of_matchesOp h h'),
    fun op => decodeOpcode_eq_drwExt_iff, fun op r => group_of_opRows0_matchesOp⟩
  intro r hr hmatch hne
  obtain ⟨j, hj, hrow⟩ := decodeOpcode_of_matchesOp hr hmatch
  obtain rfl : j = i := Option.some.inj (hj.symm.trans hi)
  exact hrow.resolve_left (Ne.symm hne)

/-- Settles O4: the listed set group by group, its count by blocks of one major opcode, and the halt. -/
theorem unknownOpcodesAreTheListedSet : Obligations.UnknownOpcodesAreTheListedSet := by
  refine ⟨decodeOpcode_eq_none_iff, countP_unknown, fun s op hpc hf hd =>
    ⟨_, step_of_unknownOpcode s hpc hf hd, ?_⟩⟩
  simp

end Sys2Proof.Proofs.Encoding
end

