-- ==== Sys2Proof/Proofs/Cycle.lean ====
section
/-! PROOFS. The statements about the cycle (40_cycle.md): the end of the program (O7), the next PC (O8), halts (O9), the
status (O11) and the inputs (O12); and that the tick precedes the instruction (O19). -/

namespace Sys2Proof.Machine

open Sys2Proof.Claims

variable (s : State)

/-! ## What an instruction can do: halt, complete, or stop past the stack -/

/-- The reason for which an instruction halts, if it does (60_exceptions.md R282). -/
def execHalt (s : State) : Instr → Option HaltReason
  | .ret => if s.sp = 0 then some .stackUnderflow else none
  | .call _ => if s.sp.toNat = Config.stackCapacity then some .stackOverflow else none
  | .skp x | .sknp x => if (s.getV x).toNat ≥ Config.numKeys then some .keyOutOfRange else none
  | i => (rangeBytes i).bind fun n => if s.i.toNat + n > Config.memSize then some .memoryOutOfBounds else none

/-- What completing an instruction does to `PC` (the table of 40_cycle.md R116) and keeps of the ports and the timers: the
status but for 00FD, the inputs, `PH`, and `DT` and `ST` but for FX15 and FX18. -/
structure Completes (i : Instr) (s t : State) : Prop where
  pc : t.pc = pcAfter s i
  out : i ≠ .exitReq → t.out = s.out := by exact fun _ => rfl
  input : t.input = s.input := by rfl
  ph : t.ph = s.ph := by rfl
  dt : (∀ x, i ≠ .ldDtVx x) → t.dt = s.dt := by exact fun _ => rfl
  st : (∀ x, i ≠ .ldStVx x) → t.st = s.st := by exact fun _ => rfl

/-- Everything an instruction can answer. -/
inductive ExecOutcome (i : Instr) (s : State) : Result → Prop where
  /-- The cycle halts and nothing else changes (60_exceptions.md R280). -/
  | halts {r : HaltReason} (halt : execHalt s i = some r) : ExecOutcome i s (.next (s.raiseHalt r))
  /-- The instruction has its effect. -/
  | completes {t : State} (halt : execHalt s i = none) (done : Completes i s t) : ExecOutcome i s (.next t)
  /-- The stack entry of 2NNN or 00EE lies past memory (log entry 9). -/
  | stops (halt : execHalt s i = none) (sp : 175 < s.sp.toNat) (stack : i = .ret ∨ ∃ nnn, i = .call nnn) :
      ExecOutcome i s (.fault .stackEntryOutsideMemory)

theorem ofNat_toNat_add (a : Word) (n : Nat) : BitVec.ofNat 16 (a.toNat + n) = a + BitVec.ofNat 16 n := by
  rw [BitVec.ofNat_add, BitVec.ofNat_toNat, BitVec.setWidth_eq]

theorem State.skipIf_pc_eq (c : Bool) : (s.skipIf c).pc = if c then s.pc + 4 else s.pc + 2 := by
  cases c <;> exact ofNat_toNat_add _ _

theorem State.lowestKey_eq_none_iff : s.lowestKey = none ↔ s.input.keys = 0 := by
  rw [State.lowestKey, List.find?_eq_none]
  refine ⟨fun h => BitVec.eq_of_getLsbD_eq fun k hk => ?_, fun h k _ => by simp [State.keyDown, h]⟩
  simpa [State.keyDown] using h k (List.mem_range.mpr hk)

theorem execOutcome_ret : ExecOutcome .ret s (exec .ret s) := by
  simp only [exec, execRet]
  by_cases hsp : s.sp = 0
  · rw [if_pos hsp]
    exact .halts (if_pos hsp)
  · rw [if_neg hsp]
    split
    · exact .completes (if_neg hsp) { pc := ofNat_toNat_add _ 2 }
    · next hmem => exact .stops (if_neg hsp) (Nat.not_le.mp hmem) (.inl rfl)

theorem execOutcome_call (nnn : BitVec 12) : ExecOutcome (.call nnn) s (exec (.call nnn) s) := by
  simp only [exec, execCall]
  by_cases hsp : s.sp.toNat = Config.stackCapacity
  · rw [if_pos hsp]
    exact .halts (if_pos hsp)
  · rw [if_neg hsp]
    split
    · exact .completes (if_neg hsp) { pc := BitVec.ofNat_toNat _ _ }
    · next hmem =>
      simp only [stackEntryInMemory, Config.stackCapacity] at hsp hmem
      exact .stops (if_neg hsp) (by omega) (.inr ⟨nnn, rfl⟩)

/-- A skip on a key (45_timers_keys.md R260) halts on a value of 16 or more, else it is a skip. -/
theorem execOutcome_skipOnKey {i : Instr} {v : Byte} {d : Bool} (hexec : exec i s = .next (s.skipOnKey v d))
    (hhalt : execHalt s i = if v.toNat ≥ Config.numKeys then some .keyOutOfRange else none)
    (hpc : pcAfter s i = if s.keyDown v.toNat then (if d then s.pc + 4 else s.pc + 2)
      else if d then s.pc + 2 else s.pc + 4) : ExecOutcome i s (exec i s) := by
  rw [hexec]
  rcases s.skipOnKey_cases v d with ⟨hv, e⟩ | ⟨hv, e⟩
  · rw [e]
    exact .halts (hhalt.trans (if_pos hv))
  · rw [e]
    have hskip : (s.skipIf (s.keyDown v.toNat == d)).pc = pcAfter s i := by
      rw [s.skipIf_pc_eq, hpc]
      cases s.keyDown v.toNat <;> cases d <;> rfl
    exact .completes (hhalt.trans (if_neg (Nat.not_le.mpr hv))) { pc := hskip }

/-- A range check (20_memory.md R60) before an effect that completes. -/
theorem execOutcome_guardRange {i : Instr} {n : Nat} {t : State} (hexec : exec i s = .next (guardRange s n t))
    (hhalt : execHalt s i = if s.i.toNat + n > Config.memSize then some .memoryOutOfBounds else none)
    (ht : Completes i s t) : ExecOutcome i s (exec i s) := by
  rw [hexec]
  rcases guardRange_cases s n t with ⟨hn, e⟩ | ⟨hn, e⟩
  · rw [e]
    exact .halts (hhalt.trans (if_pos hn))
  · rw [e]
    exact .completes (hhalt.trans (if_neg (Nat.not_lt.mpr hn))) ht

/-- The two writes of 43_alu.md R200 change the V registers only. -/
theorem execOutcome_writeResultAndFlag {i : Instr} {x : Reg} {rf : Byte × Bool}
    (hexec : exec i s = .next ((s.writeResultAndFlag x rf).advance 2)) (hhalt : execHalt s i = none)
    (hpc : pcAfter s i = s.pc + 2) : ExecOutcome i s (exec i s) := by
  rw [hexec, s.writeResultAndFlag_eq]
  exact .completes hhalt { pc := (State.advance_two_pc _).trans hpc.symm }

theorem execOutcome_ldVxK (x : Reg) : ExecOutcome (.ldVxK x) s (exec (.ldVxK x) s) := by
  simp only [exec, execLdVxK]
  cases hkey : s.lowestKey with
  | none =>
    have hpc : s.pc = pcAfter s (.ldVxK x) := (if_pos (s.lowestKey_eq_none_iff.mp hkey)).symm
    exact .completes rfl { pc := hpc }
  | some k =>
    have hkeys : s.input.keys ≠ 0 := fun h => by simp [s.lowestKey_eq_none_iff.mpr h] at hkey
    have hpc : s.pc + 2 = pcAfter s (.ldVxK x) := (if_neg hkeys).symm
    cases s.params.fx0aWritesKey <;> exact .completes rfl { pc := (State.advance_two_pc _).trans hpc }

/-- Every instruction by the shape of their effect. -/
theorem execOutcome (i : Instr) : ExecOutcome i s (exec i s) := by
  cases i with
  | ret => exact execOutcome_ret s
  | call nnn => exact execOutcome_call s nnn
  | ldVxK x => exact execOutcome_ldVxK s x
  | skp x => exact execOutcome_skipOnKey s (d := true) rfl rfl rfl
  | sknp x => exact execOutcome_skipOnKey s (d := false) rfl rfl rfl
  | addReg _ _ | subReg _ _ | shr _ _ | subnReg _ _ | shl _ _ => exact execOutcome_writeResultAndFlag s rfl rfl rfl
  | drw _ _ _ | drwExt _ _ | ldB _ | storeRegs _ | loadRegs _ =>
    exact execOutcome_guardRange s rfl rfl { pc := State.advance_two_pc _ }
  | seImm _ _ | seReg _ _ | sneImm _ _ | sneReg _ _ =>
    exact .completes rfl { pc := (State.skipIf_pc_eq _ _).trans (by simp [pcAfter]) }
  | jp nnn => exact .completes rfl { pc := BitVec.ofNat_toNat _ _ }
  | jpV0 nnn => exact .completes rfl { pc := by simp [pcAfter, BitVec.ofNat_add] }
  | exitReq => exact .completes rfl { pc := State.advance_two_pc _, out := fun h => absurd rfl h }
  | ldDtVx x => exact .completes rfl { pc := State.advance_two_pc _, dt := fun h => absurd rfl (h x) }
  | ldStVx x => exact .completes rfl { pc := State.advance_two_pc _, st := fun h => absurd rfl (h x) }
  | cls | scd _ | togi | scr | scl | low | high | sys _ | ldImm _ _ | addImm _ _ | ldReg _ _ | orReg _ _ | andReg _ _
  | xorReg _ _ | ldI _ | rnd _ _ | ldVxDt _ | addI _ | ldF _ | ldHF _ =>
    exact .completes rfl { pc := State.advance_two_pc _ }

section
variable {i : Instr} {s t : State}

theorem ExecOutcome.of_exec (h : exec i s = .next t) : ExecOutcome i s (.next t) := h ▸ execOutcome s i

theorem exec_input (h : exec i s = .next t) : t.input = s.input := by
  cases ExecOutcome.of_exec h with
  | halts => rfl
  | completes _ done => exact done.input

theorem exec_pc (h : exec i s = .next t) (hhalt : t.halted = false) : t.pc = pcAfter s i := by
  cases ExecOutcome.of_exec h with
  | halts => cases hhalt
  | completes _ done => exact done.pc

theorem exec_exitReq : exec .exitReq s = .next { s with out := .exitRequest, pc := s.pc + 2 } :=
  congrArg Host.Outcome.next (State.advance_eq _ 2)

/-- A completed instruction raises no halt: 00FD requests the exit, every other one keeps the status (R118). -/
theorem Completes.out_eq (done : Completes i s t) (ran : exec i s = .next t) :
    t.out = if i = .exitReq then .exitRequest else s.out := by
  split
  · next hi =>
    subst hi
    obtain rfl := Host.Outcome.next.inj (exec_exitReq.symm.trans ran)
    rfl
  · next hi => exact done.out hi

end

/-! ## What an Advance can do: halt, run its instruction to the end, or stop outside memory -/

/-- The reason for which an Advance halts, if it does (60_exceptions.md R282). -/
def cycleHalt (s : State) : Option HaltReason :=
  match cycleInstr s with
  | some i => execHalt s i
  | none => if atEndOfProgram s then some .endOfProgram else (fetchOpcode s).map fun _ => .unknownOpcode

/-- Everything an Advance can answer. -/
inductive StepOutcome (s : State) : Result → Prop where
  /-- The cycle halts and keeps only what its start changed (40_cycle.md R120). -/
  | halts {r : HaltReason} (halt : cycleHalt s = some r) : StepOutcome s (.next ((beginCycle s).raiseHalt r))
  /-- The instruction runs to its end in the state after the tick. -/
  | completes {i : Instr} {t : State} (halt : cycleHalt s = none) (instr : cycleInstr s = some i)
      (ran : exec i (beginCycle s) = .next t) (done : Completes i (beginCycle s) t) : StepOutcome s (.next t)
  /-- The fetch or a stack entry lies past memory (log entries 8 and 9). -/
  | stops {f : Fault} (halt : cycleHalt s = none) : StepOutcome s (.fault f)

theorem cycleInstr_of_atEnd (h : atEndOfProgram s = true) : cycleInstr s = none :=
  if_pos (of_decide_eq_true h)

theorem cycleInstr_of_not_atEnd (h : atEndOfProgram s = false) : cycleInstr s = (fetchOpcode s).bind decodeOpcode :=
  if_neg (of_decide_eq_false h)

/-- Whether an instruction halts depends on `V`, `I` and `SP` alone. -/
@[simp] theorem execHalt_beginCycle (i : Instr) : execHalt (beginCycle s) i = execHalt s i := by
  simp [execHalt]

@[simp] theorem cycleHalt_beginCycle : cycleHalt (beginCycle s) = cycleHalt s := by
  simp [cycleHalt, cycleInstr]

@[simp] theorem cycleHalt_raiseHalt (r : HaltReason) : cycleHalt (s.raiseHalt r) = cycleHalt s := rfl

theorem cycleHalt_of_cycleInstr {i : Instr} (h : cycleInstr s = some i) : cycleHalt s = execHalt s i := by
  rw [cycleHalt, h]

theorem stepOutcome : StepOutcome s (step s) := by
  rcases step_cases s with ⟨hend, e⟩ | ⟨hend, ⟨hf, e⟩ | ⟨op, hf, ⟨hd, e⟩ | ⟨i, hd, e⟩⟩⟩ <;> rw [e]
  · exact .halts (by rw [cycleHalt, cycleInstr_of_atEnd s hend]; exact if_pos hend)
  · exact .stops (by simp [cycleHalt, cycleInstr_of_not_atEnd s hend, hend, hf])
  · exact .halts (by simp [cycleHalt, cycleInstr_of_not_atEnd s hend, hend, hf, hd])
  · have hinstr : cycleInstr s = some i := by rw [cycleInstr_of_not_atEnd s hend, hf]; exact hd
    have hhalt : cycleHalt s = execHalt (beginCycle s) i := by
      rw [cycleHalt_of_cycleInstr s hinstr, execHalt_beginCycle]
    have hexec := execOutcome (beginCycle s) i
    generalize hres : exec i (beginCycle s) = res at hexec
    cases hexec with
    | halts halt => exact .halts (hhalt.trans halt)
    | completes halt done => exact .completes (hhalt.trans halt) hinstr hres done
    | stops halt => exact .stops (hhalt.trans halt)

theorem StepOutcome.of_step {t : State} (h : step s = .next t) : StepOutcome s (.next t) := h ▸ stepOutcome s

/-- An Advance halts for exactly the reason `cycleHalt` gives. -/
theorem step_of_cycleHalt {r : HaltReason} (h : cycleHalt s = some r) :
    step s = .next ((beginCycle s).raiseHalt r) := by
  have hstep := stepOutcome s
  generalize step s = res at hstep
  cases hstep with
  | halts halt => rw [Option.some.inj (halt.symm.trans h)]
  | completes halt | stops halt => simp [halt] at h

theorem cycleHalt_of_step {t : State} {r : HaltReason} (h : step s = .next t) (hr : t.out = .halt r) :
    cycleHalt s = some r ∧ t = (beginCycle s).raiseHalt r := by
  cases StepOutcome.of_step s h with
  | halts halt =>
    obtain rfl := Status.halt.inj hr
    exact ⟨halt, rfl⟩
  | completes halt instr ran done =>
    rw [done.out_eq ran, beginCycle_out] at hr
    split at hr <;> cases hr

@[simp] theorem beginCycle_input : (beginCycle s).input = (sampleInputs s).input := timerTick_input _

/-- The start of a cycle in one equation: the tick's timers, and the ports of the sampling. -/
theorem beginCycle_eq : beginCycle s = { s with
    ph := (timerTick s).ph
    dt := (timerTick s).dt
    st := (timerTick s).st
    out := .cont
    input := (sampleInputs s).input
    pending := (sampleInputs s).pending
    draws := (sampleInputs s).draws } := by
  unfold beginCycle timerTick sampleInputs
  cases s.pending <;> dsimp only <;> split <;> rfl

/-- The status of the last Advance is overwritten before anything reads it (R110). -/
theorem beginCycle_withOut (o : Status) : beginCycle { s with out := o } = beginCycle s := by
  unfold beginCycle sampleInputs
  cases s.pending <;> rfl

/-- Only the end-of-program check gives its reason. -/
theorem execHalt_ne_endOfProgram (i : Instr) : execHalt s i ≠ some .endOfProgram := by
  unfold execHalt
  split
  case h_5 => cases rangeBytes i <;> simp
  all_goals simp

theorem cycleHalt_ne_endOfProgram (h : atEndOfProgram s = false) : cycleHalt s ≠ some .endOfProgram := by
  unfold cycleHalt
  split
  · exact execHalt_ne_endOfProgram s _
  · simp [h]

/-! ## An instruction that does not read an input commutes with changing it (R119) -/

/-- The state with its inputs changed by `g` and every other field kept. -/
def State.mapInput (g : CycleInput → CycleInput) (s : State) : State := { s with input := g s.input }

/-- What an instruction satisfies that reads nothing of the inputs that `g` changes. -/
def CommutesWithInput (g : CycleInput → CycleInput) (i : Instr) : Prop :=
  ∀ s, exec i (s.mapInput g) = mapNext (State.mapInput g) (exec i s)

variable (g : CycleInput → CycleInput)

theorem guardRange_mapInput {n : Nat} {t t' : State} (ht : t' = t.mapInput g) :
    guardRange (s.mapInput g) n t' = (guardRange s n t).mapInput g := by
  rw [ht, guardRange, guardRange, apply_ite (State.mapInput g)]
  rfl

theorem State.writeResultAndFlag_mapInput (x : Reg) (rf : Byte × Bool) :
    (s.mapInput g).writeResultAndFlag x rf = (s.writeResultAndFlag x rf).mapInput g := by
  cases h : s.params.vfOrder <;> simp only [State.writeResultAndFlag, State.mapInput, h] <;> rfl

theorem commutesWithInput_of_writeResultAndFlag {i : Instr} {x : Reg} {rf : State → Byte × Bool}
    (hexec : ∀ s, exec i s = .next ((s.writeResultAndFlag x (rf s)).advance 2))
    (hrf : ∀ s, rf (s.mapInput g) = rf s) : CommutesWithInput g i := fun s => by
  rw [hexec, hexec, hrf, s.writeResultAndFlag_mapInput]; rfl

theorem commutesWithInput_ret : CommutesWithInput g .ret := fun s => by
  simp only [exec, execRet, mapNext_ite]; rfl

theorem commutesWithInput_call (nnn : BitVec 12) : CommutesWithInput g (.call nnn) := fun s => by
  simp only [exec, execCall, mapNext_ite]; rfl

section
variable {g}

theorem State.keyDown_mapInput (hg : ∀ c, (g c).keys = c.keys) : (s.mapInput g).keyDown = s.keyDown := by
  funext k
  exact congrArg (BitVec.getLsbD · k) (hg s.input)

theorem State.skipOnKey_mapInput (hg : ∀ c, (g c).keys = c.keys) (v : Byte) (d : Bool) :
    (s.mapInput g).skipOnKey v d = (s.skipOnKey v d).mapInput g := by
  rw [State.skipOnKey, State.skipOnKey, s.keyDown_mapInput hg, apply_ite (State.mapInput g)]
  rfl

theorem commutesWithInput_ldVxK (hg : ∀ c, (g c).keys = c.keys) (x : Reg) : CommutesWithInput g (.ldVxK x) :=
  fun s => by
    simp only [exec, execLdVxK, State.lowestKey, s.keyDown_mapInput hg]
    cases (List.range Config.numKeys).find? s.keyDown with
    | none => rfl
    | some k => cases h : s.params.fx0aWritesKey <;> simp only [State.mapInput, h] <;> rfl

theorem commutesWithInput_rnd (hg : ∀ c, (g c).rand = c.rand) (x : Reg) (nn : Byte) :
    CommutesWithInput g (.rnd x nn) := fun s => by
  simp only [exec, execRnd, State.mapInput, hg]
  rfl

/-- Only EX9E, EXA1 and FX0A read the keys, and only CXNN the random byte. -/
theorem commutesWithInput (i : Instr)
    (hkeys : (∀ x, i ≠ .skp x ∧ i ≠ .sknp x ∧ i ≠ .ldVxK x) ∨ ∀ c, (g c).keys = c.keys)
    (hrand : (∀ x nn, i ≠ .rnd x nn) ∨ ∀ c, (g c).rand = c.rand) : CommutesWithInput g i := by
  cases i with
  | skp x =>
    have hg := hkeys.resolve_left fun h => (h x).1 rfl
    exact fun s => congrArg Host.Outcome.next (s.skipOnKey_mapInput hg _ _)
  | sknp x =>
    have hg := hkeys.resolve_left fun h => (h x).2.1 rfl
    exact fun s => congrArg Host.Outcome.next (s.skipOnKey_mapInput hg _ _)
  | ldVxK x => exact commutesWithInput_ldVxK (hkeys.resolve_left fun h => (h x).2.2 rfl) x
  | rnd x nn => exact commutesWithInput_rnd (hrand.resolve_left fun h => h x nn rfl) x nn
  | ret => exact commutesWithInput_ret g
  | call nnn => exact commutesWithInput_call g nnn
  | addReg _ _ | subReg _ _ | shr _ _ | subnReg _ _ | shl _ _ =>
    exact commutesWithInput_of_writeResultAndFlag g (fun _ => rfl) (fun _ => rfl)
  | drw _ _ _ | drwExt _ _ | ldB _ | storeRegs _ | loadRegs _ =>
    exact fun s => congrArg Host.Outcome.next (guardRange_mapInput s g rfl)
  | cls | scd _ | togi | scr | scl | exitReq | low | high | sys _ | jp _ | seImm _ _ | sneImm _ _ | seReg _ _
  | ldImm _ _ | addImm _ _ | ldReg _ _ | orReg _ _ | andReg _ _ | xorReg _ _ | sneReg _ _ | ldI _ | jpV0 _ | ldVxDt _
  | ldDtVx _ | ldStVx _ | addI _ | ldF _ | ldHF _ => exact fun _ => rfl

end

end Sys2Proof.Machine

namespace Sys2Proof.Proofs.Cycle

open Sys2Proof Sys2Proof.Machine Sys2Proof.Claims

/-- Settles O8: a next state is the halt of `execHalt` or one with the table's `PC`. -/
theorem nextPcFollowsTable : Obligations.NextPcFollowsTable := fun _ _ _ _ => exec_pc

/-- Settles O9: what a halt depends on (`PC`, `PLEN`, memory, `V`, `I` and `SP`) is not changed by a halting cycle. -/
theorem haltKeepsOnlyTickAndRepeats : Obligations.HaltKeepsOnlyTickAndRepeats := by
  refine ⟨fun s t r h hr => ?_, fun s o => congrArg runCycle (beginCycle_withOut s o)⟩
  obtain ⟨hhalt, rfl⟩ := cycleHalt_of_step s h hr
  have hagain : cycleHalt ((beginCycle s).raiseHalt r) = some r := by simpa using hhalt
  exact ⟨by rw [beginCycle_eq]; rfl, _, step_of_cycleHalt _ hagain, rfl, by simp⟩

/-- Settles O11: a completed cycle's status is EXIT_REQUEST or CONTINUE by its instruction, and 00FD never halts. -/
theorem statusTellsWhatTheCycleDid : Obligations.StatusTellsWhatTheCycleDid := by
  intro s t h
  cases StepOutcome.of_step s h with
  | halts halt =>
    refine ⟨⟨nofun, fun hinstr => ?_⟩, nofun, nofun⟩
    rw [cycleHalt_of_cycleInstr s hinstr] at halt
    cases halt
  | @completes i _ _ instr ran done =>
    by_cases hi : i = .exitReq
    · subst hi
      obtain rfl := Host.Outcome.next.inj (exec_exitReq.symm.trans ran)
      exact ⟨iff_of_true rfl instr, fun _ => by rw [beginCycle_pc], nofun⟩
    · have hout : t.out = .cont := (done.out hi).trans (beginCycle_out s)
      have hinstr : cycleInstr s ≠ some .exitReq := fun h => hi (Option.some.inj (instr.symm.trans h))
      exact ⟨iff_of_false (by simp [hout]) hinstr, by simp [hout], fun _ => ⟨i, instr, hi⟩⟩

/-- Settles O12: an instruction that does not read an input commutes with changing it. -/
theorem onlyNamedInstructionsReadInputs : Obligations.OnlyNamedInstructionsReadInputs := by
  refine ⟨fun s t h => ?_, fun i s t => exec_input,
    fun i s k hi => commutesWithInput (g := fun c => { c with keys := k }) i (.inl hi) (.inr fun _ => rfl) s,
    fun i s b hi => commutesWithInput (g := fun c => { c with rand := b }) i (.inr fun _ => rfl) (.inl hi) s⟩
  cases StepOutcome.of_step s h with
  | halts => exact beginCycle_input s
  | completes _ _ _ done => exact done.input.trans (beginCycle_input s)

/-- Settles O19: a halt keeps the tick's timers, and a completed instruction keeps `PH`. -/
theorem tickPrecedesInstruction : Obligations.TickPrecedesInstruction := by
  intro s t h
  cases StepOutcome.of_step s h with
  | halts => exact ⟨beginCycle_ph s, fun _ => beginCycle_dt s, fun _ => beginCycle_st s⟩
  | completes _ instr _ done =>
    rw [instr]
    exact ⟨done.ph.trans (beginCycle_ph s),
      fun hx => (done.dt fun x hi => hx x (congrArg some hi)).trans (beginCycle_dt s),
      fun hx => (done.st fun x hi => hx x (congrArg some hi)).trans (beginCycle_st s)⟩

/-- Settles O7: the check comes before the fetch, and no other halt gives its reason. -/
theorem endOfProgramHaltsBeforeFetch : Obligations.EndOfProgramHaltsBeforeFetch := by
  refine fun s => ⟨fun hpc => ?_, fun hpc t h hr => ?_⟩
  · have hend : atEndOfProgram s = true := decide_eq_true hpc
    exact step_of_cycleHalt s (by rw [cycleHalt, cycleInstr_of_atEnd s hend]; exact if_pos hend)
  · exact cycleHalt_ne_endOfProgram s ((atEndOfProgram_eq_false_iff s).mpr hpc) (cycleHalt_of_step s h hr).1

end Sys2Proof.Proofs.Cycle
end

