-- ==== Sys2Proof/Proofs/Control.lean ====
section
/-! PROOFS. The statements about control transfer (41_control.md): the call (O25), the return (O24) and that it undoes the
call (O26), the register skips (O27), the jumps (O28), and the exit request (O29). -/

namespace Sys2Proof.Machine

open Sys2Proof.Claims

variable (s : State)

/-! ## The words of an instruction (30_encoding.md R86, R96) -/

theorem hasRow_rowOf (i : Instr) : HasRow i (rowOf i).value (rowOf i).mask :=
  ⟨eq_of_beq (rowOf_matchesOp_encode i), decodeOpcode_encode⟩

/-! ## 2NNN pushes, 00EE pops (R131, R134) -/

theorem exec_call_of_full (nnn : BitVec 12) (hsp : s.sp.toNat = 175) :
    exec (.call nnn) s = .next (s.raiseHalt .stackOverflow) := if_pos hsp

theorem exec_call_of_lt (nnn : BitVec 12) (hsp : s.sp.toNat < 175) : exec (.call nnn) s =
    .next { s.stackWrite (s.sp.toNat + 1) s.pc with sp := s.sp + 1, pc := nnn.setWidth 16 } := by
  have hnotFull : s.sp.toNat ≠ Config.stackCapacity := Nat.ne_of_lt hsp
  have hentry : stackEntryInMemory (s.sp.toNat + 1) := hsp
  simp only [exec, execCall, if_neg hnotFull, if_pos hentry, State.setPc, BitVec.ofNat_toNat]

theorem exec_ret_of_empty (hsp : s.sp = 0) : exec .ret s = .next (s.raiseHalt .stackUnderflow) := if_pos hsp

theorem exec_ret_of_le (hne : s.sp ≠ 0) (hsp : s.sp.toNat ≤ 175) :
    exec .ret s = .next { s with sp := s.sp - 1, pc := s.stackRead s.sp.toNat + 2 } := by
  have hentry : stackEntryInMemory s.sp.toNat := hsp
  simp only [exec, execRet, if_neg hne, if_pos hentry, State.setPc, ofNat_toNat_add]
  rfl

theorem entryBytes_getElem_zero (e : StackEndian) (w : Word) : (entryBytes e w)[0]'(by simp) =
    if e = .little then w.extractLsb' 0 8 else w.extractLsb' 8 8 := by cases e <;> rfl

theorem entryBytes_getElem_one (e : StackEndian) (w : Word) : (entryBytes e w)[1]'(by simp) =
    if e = .little then w.extractLsb' 8 8 else w.extractLsb' 0 8 := by cases e <;> rfl

/-- What StackRead gives depends on the entry's two bytes and STACK_ENDIAN only (20_memory.md R58). -/
theorem State.stackRead_congr {t u : State} {k : Nat} (hparams : u.params = t.params)
    (h0 : u.readByte (stackAddr k) = t.readByte (stackAddr k))
    (h1 : u.readByte (stackAddr k + 1) = t.readByte (stackAddr k + 1)) : u.stackRead k = t.stackRead k := by
  rw [State.stackRead, State.stackRead, hparams, h0, h1]

theorem toNat_add_one_of_lt_stackCapacity {sp : Byte} (hsp : sp.toNat < 175) : (sp + 1).toNat = sp.toNat + 1 := by
  bv_omega

/-- After a call the top entry holds the call's own address (R134). -/
theorem stackRead_top_of_exec_call {t : State} {nnn : BitVec 12} (hm : Memory.wf (resetByte s.params) s.mem)
    (hsp : s.sp.toNat < 175) (h : exec (.call nnn) s = .next t) : t.stackRead t.sp.toNat = s.pc := by
  obtain rfl := Host.Outcome.next.inj ((exec_call_of_lt s nnn hsp).symm.trans h)
  simp only [toNat_add_one_of_lt_stackCapacity hsp]
  exact s.stackRead_stackWrite hm s.pc hsp

/-! ## Skips and jumps (R130, R133, R139) -/

theorem State.skipIf_eq (c : Bool) : s.skipIf c = { s with pc := if c then s.pc + 4 else s.pc + 2 } :=
  congrArg (fun w => { s with pc := w }) (s.skipIf_pc_eq c)

theorem exec_seImm (x : Reg) (nn : Byte) :
    exec (.seImm x nn) s = .next { s with pc := if s.getV x = nn then s.pc + 4 else s.pc + 2 } := by
  simp only [exec, execSeImm, State.skipIf_eq, beq_iff_eq]

theorem exec_sneImm (x : Reg) (nn : Byte) :
    exec (.sneImm x nn) s = .next { s with pc := if s.getV x = nn then s.pc + 2 else s.pc + 4 } := by
  simp only [exec, execSneImm, State.skipIf_eq, bne_iff_ne, ite_not]

theorem exec_seReg (x y : Reg) :
    exec (.seReg x y) s = .next { s with pc := if s.getV x = s.getV y then s.pc + 4 else s.pc + 2 } := by
  simp only [exec, execSeReg, State.skipIf_eq, beq_iff_eq]

theorem exec_sneReg (x y : Reg) :
    exec (.sneReg x y) s = .next { s with pc := if s.getV x = s.getV y then s.pc + 2 else s.pc + 4 } := by
  simp only [exec, execSneReg, State.skipIf_eq, bne_iff_ne, ite_not]

theorem exec_sys (nnn : BitVec 12) : exec (.sys nnn) s = .next { s with pc := s.pc + 2 } :=
  congrArg Host.Outcome.next (s.advance_eq 2)

theorem exec_jp (nnn : BitVec 12) : exec (.jp nnn) s = .next { s with pc := nnn.setWidth 16 } := by
  simp only [exec, execJp, State.setPc, BitVec.ofNat_toNat]

theorem exec_jpV0 (nnn : BitVec 12) :
    exec (.jpV0 nnn) s = .next { s with pc := BitVec.ofNat 16 (nnn.toNat + (s.getV 0).toNat) } := rfl

/-- An instruction that only sets `PC`, to a target past the program, makes the next cycle halt (40_cycle.md R111). -/
theorem step_after_jump_past_program {i : Instr} {target : Word} (hjump : exec i s = .next { s with pc := target })
    (hpast : target.toNat ≥ 0x200 + s.plen.toNat) :
    ∃ t u, exec i s = .next t ∧ step t = .next u ∧ u.out = .halt .endOfProgram := by
  obtain ⟨hhalts, -⟩ := Sys2Proof.Proofs.Cycle.endOfProgramHaltsBeforeFetch { s with pc := target }
  exact ⟨_, _, hjump, hhalts hpast, rfl⟩

/-- NNN + V0 fits 16 bits (R139). -/
theorem toNat_ofNat_add_byte (nnn : BitVec 12) (b : Byte) :
    (BitVec.ofNat 16 (nnn.toNat + b.toNat)).toNat = nnn.toNat + b.toNat :=
  toNat_ofNat_of_lt (by omega)

end Sys2Proof.Machine

namespace Sys2Proof.Proofs.Control

open Sys2Proof Sys2Proof.Machine

/-- Settles O25: the push is StackWrite of entry SP + 1, which is inside memory below SP = 175. -/
theorem callPushesItsOwnAddress : Obligations.CallPushesItsOwnAddress := by
  intro s nnn
  refine ⟨hasRow_rowOf (.call nnn), exec_call_of_full s nnn, fun ⟨hmem, _⟩ hsp => ?_⟩
  have h0 := s.readByte_stackWrite_in hmem s.pc hsp (j := 0) (by decide)
  have h1 := s.readByte_stackWrite_in hmem s.pc hsp (j := 1) (by decide)
  rw [entryBytes_getElem_zero] at h0
  rw [entryBytes_getElem_one] at h1
  exact ⟨_, exec_call_of_lt s nnn hsp, rfl, h0, h1, fun a => s.readByte_stackWrite_out s.pc⟩

/-- Settles O26: the entry the return reads is the one the call pushed, so it spells the call's address. -/
theorem retUndoesCall : Obligations.RetUndoesCall := by
  intro s t u nnn ⟨hmem, _⟩ hsp hcall husp hparams h0 h1
  have htop : u.stackRead u.sp.toNat = s.pc := by
    rw [husp, State.stackRead_congr hparams h0 h1, stackRead_top_of_exec_call s hmem hsp hcall]
  have hpushed : u.sp = s.sp + 1 := by
    obtain rfl := Host.Outcome.next.inj ((exec_call_of_lt s nnn hsp).symm.trans hcall)
    exact husp
  have hdepth : u.sp.toNat = s.sp.toNat + 1 := by rw [hpushed, toNat_add_one_of_lt_stackCapacity hsp]
  rw [exec_ret_of_le u (fun h => by simp [h] at hdepth) (by omega), htop, hpushed, BitVec.add_sub_cancel]

/-- Settles O24: the popped value is StackRead of entry SP. -/
theorem retPopsAndGoesPastTheCall : Obligations.RetPopsAndGoesPastTheCall :=
  ⟨hasRow_rowOf .ret, fun s => ⟨exec_ret_of_empty s, exec_ret_of_le s⟩⟩

/-- Settles O27: each is one skip on its condition. -/
theorem skipsTestTheirCondition : Obligations.SkipsTestTheirCondition := fun s x y nn =>
  ⟨hasRow_rowOf (.seImm x nn), hasRow_rowOf (.sneImm x nn), hasRow_rowOf (.seReg x y), hasRow_rowOf (.sneReg x y),
    exec_seImm s x nn, exec_sneImm s x nn, exec_seReg s x y, exec_sneReg s x y⟩

/-- Settles O28: a jump keeps PLEN, so the end-of-program check of the next cycle compares it with the target. -/
theorem jumpsGoToTheirTarget : Obligations.JumpsGoToTheirTarget := by
  intro s nnn
  refine ⟨hasRow_rowOf (.sys nnn), hasRow_rowOf (.jp nnn), hasRow_rowOf (.jpV0 nnn), exec_sys s nnn, exec_jp s nnn,
    exec_jpV0 s nnn, fun hpast => ?_, fun hpast => ?_⟩
  · exact step_after_jump_past_program s (exec_jp s nnn) (by rwa [BitVec.toNat_setWidth_of_le (by decide)])
  · exact step_after_jump_past_program s (exec_jpV0 s nnn) (by rwa [toNat_ofNat_add_byte])

/-- Settles O29: the status is overwritten when the next cycle begins, and `PC` is kept. -/
theorem exitRequestOnlySignals : Obligations.ExitRequestOnlySignals := by
  refine ⟨hasRow_rowOf .exitReq, fun s => ⟨exec_exitReq, fun t h => ?_⟩⟩
  obtain rfl := Host.Outcome.next.inj (exec_exitReq.symm.trans h)
  exact ⟨beginCycle_out _, beginCycle_pc _⟩

end Sys2Proof.Proofs.Control
end

