-- ==== Sys2Proof/Proofs/Display.lean ====
section
/-! PROOFS. The statements about the display (42_display.md): one pixel and its bit (O30), the plane in both resolutions
(O31), compositing (O32) and drawing twice (O33), scrolling (O36, O37), the two draws (O34, O35), clearing and the modes
(O38), and the host's queries (O39). -/

namespace Sys2Proof.Machine

open Sys2Proof.Claims

variable (s : State)

/-! ## The pixels of the current resolution (R160, R161) -/

/-- Whether a column and a row name a pixel of the current resolution. -/
def OnScreen (ext : Bool) (p : Nat × Nat) : Prop := p.1 < Config.width ext ∧ p.2 < Config.height ext

theorem width_pos (ext : Bool) : 0 < Config.width ext := by cases ext <;> decide

theorem height_pos (ext : Bool) : 0 < Config.height ext := by cases ext <;> decide

theorem sixteen_le_width (ext : Bool) : 16 ≤ Config.width ext := by cases ext <;> decide

theorem sixteen_le_height (ext : Bool) : 16 ≤ Config.height ext := by cases ext <;> decide

theorem getPix_setPix {ext : Bool} (d : Plane) {x y x' y' : Nat} (b : Bool) (hp : OnScreen ext (x, y))
    (hx' : x' < Config.width ext) :
    getPix ext (setPix ext d x y b) x' y' = if x' = x ∧ y' = y then b else getPix ext d x' y' := by
  have ⟨hx, hy⟩ := hp
  by_cases hb : pixelByte ext x' y' = pixelByte ext x y
  · have hbit : 7 - x' % 8 = 7 - x % 8 ↔ x' = x ∧ y' = y :=
      ⟨fun h => pixelByte_inj hx' hx hb (by omega), fun h => by rw [h.1]⟩
    have hlt : pixelByte ext x y < Config.dispBytes := Nat.lt_of_lt_of_le (pixelByte_lt hx hy) (stride_height_le ext)
    rw [getPix_eq, getPix_eq, hb, getLsbD_setPix ext d x y b (by omega) hlt]
    exact if_congr hbit rfl rfl
  · have hne : ¬ (x' = x ∧ y' = y) := fun ⟨hx, hy⟩ => hb (by rw [hx, hy])
    rw [getPix_eq, get_setPix_ne ext d x y b hb, ← getPix_eq, if_neg hne]

/-- Every byte of the current resolution's part holds pixels of it: bit `j` of byte `k` is pixel
`(8 * (k mod S) + 7 - j, k / S)`. -/
theorem getLsbD_get_eq_getPix (ext : Bool) (d : Plane) {k j : Nat} (hk : k < planeBytes ext) (hj : j < 8) :
    OnScreen ext (k % stride ext * 8 + (7 - j), k / stride ext) ∧
      (d.get k).getLsbD j = getPix ext d (k % stride ext * 8 + (7 - j)) (k / stride ext) := by
  have hbyte : pixelByte ext (k % stride ext * 8 + (7 - j)) (k / stride ext) = k := by
    rw [pixelByte, show (k % stride ext * 8 + (7 - j)) / 8 = k % stride ext by omega]
    exact Nat.div_add_mod' k _
  refine ⟨?_, ?_⟩
  · cases ext <;> simp [OnScreen, planeBytes, stride_eq, Config.width, Config.height] at * <;> omega
  · rw [getPix_eq, hbyte, show 7 - (k % stride ext * 8 + (7 - j)) % 8 = j by omega]

/-- Two planes with the same pixels in the current resolution and the same bytes outside it are equal. -/
theorem plane_ext {ext : Bool} {d d' : Plane}
    (hpix : ∀ x y, x < Config.width ext → y < Config.height ext → getPix ext d x y = getPix ext d' x y)
    (hout : ∀ k, planeBytes ext ≤ k → d.get k = d'.get k) : d = d' := by
  refine Bytes.ext_get fun k _ => ?_
  by_cases hk : k < planeBytes ext
  · refine BitVec.eq_of_getLsbD_eq fun j hj => ?_
    obtain ⟨⟨hx, hy⟩, hbit⟩ := getLsbD_get_eq_getPix ext d hk hj
    rw [hbit, (getLsbD_get_eq_getPix ext d' hk hj).2, hpix _ _ hx hy]
  · exact hout k (Nat.not_lt.mp hk)

theorem getPix_zeros (ext : Bool) (x y : Nat) : getPix ext (Bytes.zeros Config.dispBytes) x y = false := by
  rw [getPix_eq, Bytes.get_zeros]; exact BitVec.getLsbD_zero

/-- High resolution joins two rows of low resolution side by side (R162; 92_eei_decisions.md D28). -/
theorem getPix_high_eq_low (d : Plane) (x y : Nat) :
    getPix true d x y = getPix false d (x % 64) (2 * y + x / 64) := by
  have hbyte : pixelByte true x y = pixelByte false (x % 64) (2 * y + x / 64) := by
    simp only [pixelByte, stride_eq, if_true, Bool.false_eq_true, if_false]; omega
  rw [getPix_eq, getPix_eq, hbyte, show x % 64 % 8 = x % 8 by omega]

/-! ## Plotting a list of pixels -/

/-- The pixels of a list plotted in order. -/
def plotAll (ext : Bool) (ps : List (Nat × Nat)) (acc : Plane × Bool) : Plane × Bool :=
  ps.foldl (fun acc p => plotBit ext p.1 p.2 acc) acc

theorem getPix_plotBit {ext : Bool} {p : Nat × Nat} (acc : Plane × Bool) {x y : Nat} (hp : OnScreen ext p)
    (hx : x < Config.width ext) : getPix ext (plotBit ext p.1 p.2 acc).1 x y =
      if (x, y) = p then !getPix ext acc.1 x y else getPix ext acc.1 x y := by
  obtain ⟨px, py⟩ := p
  rw [plotBit, getPix_setPix acc.1 _ hp hx]
  by_cases h : x = px ∧ y = py
  · obtain ⟨rfl, rfl⟩ := h; simp
  · simp [h]

/-- Plotting distinct pixels inverts exactly those. -/
theorem getPix_plotAll {ext : Bool} {ps : List (Nat × Nat)} (hps : ∀ p ∈ ps, OnScreen ext p) (hnodup : ps.Nodup)
    (acc : Plane × Bool) {x y : Nat} (hx : x < Config.width ext) :
    getPix ext (plotAll ext ps acc).1 x y = if (x, y) ∈ ps then !getPix ext acc.1 x y else getPix ext acc.1 x y := by
  induction ps generalizing acc with
  | nil => simp [plotAll]
  | cons p ps ih =>
    obtain ⟨hp, hps⟩ := List.forall_mem_cons.mp hps
    obtain ⟨hfresh, hnodup⟩ := List.nodup_cons.mp hnodup
    have htail := ih hps hnodup (plotBit ext p.1 p.2 acc)
    rw [getPix_plotBit acc hp hx] at htail
    refine htail.trans ?_
    by_cases h : (x, y) = p
    · subst h; simp [hfresh]
    · simp [h]

/-- Plotting distinct pixels collides when one of them was on before. -/
theorem plotAll_collision {ext : Bool} {ps : List (Nat × Nat)} (hps : ∀ p ∈ ps, OnScreen ext p) (hnodup : ps.Nodup)
    (acc : Plane × Bool) : (plotAll ext ps acc).2 = true ↔
      acc.2 = true ∨ ∃ p ∈ ps, getPix ext acc.1 p.1 p.2 = true := by
  induction ps generalizing acc with
  | nil => simp [plotAll]
  | cons p ps ih =>
    obtain ⟨hp, hps⟩ := List.forall_mem_cons.mp hps
    obtain ⟨hfresh, hnodup⟩ := List.nodup_cons.mp hnodup
    have hkept : ∀ q ∈ ps, getPix ext (plotBit ext p.1 p.2 acc).1 q.1 q.2 = getPix ext acc.1 q.1 q.2 := fun q hq => by
      have hne : ¬ (q.1, q.2) = p := fun h => hfresh (h ▸ hq)
      rw [getPix_plotBit acc hp (hps q hq).1, if_neg hne]
    have hfirst : (plotBit ext p.1 p.2 acc).2 = true ↔ acc.2 = true ∨ getPix ext acc.1 p.1 p.2 = true :=
      Bool.or_eq_true_iff
    refine (ih hps hnodup (plotBit ext p.1 p.2 acc)).trans ?_
    rw [hfirst, List.exists_mem_cons_iff, or_assoc]
    exact or_congr_right (or_congr_right (exists_congr fun q => and_congr_right fun hq => by rw [hkept q hq]))

/-! ## Sprites (R164, R173) -/

/-- Fewer offsets than there are columns (or rows) stay apart under the wrap. -/
theorem eq_of_add_mod_eq {a b b' n : Nat} (hb : b < n) (hb' : b' < n) (h : (a + b) % n = (a + b') % n) : b = b' :=
  (Nat.ModEq.add_left_cancel' a h).eq_of_lt_of_lt hb hb'

/-- The pixels under the set bits of a sprite, in the order in which a draw reaches them. -/
def litPixels (ext : Bool) (x0 y0 rows cols : Nat) (spr : Nat → Nat → Bool) : List (Nat × Nat) :=
  (List.range rows).flatMap fun r => ((List.range cols).filter (spr r)).map fun c =>
    ((x0 + c) % Config.width ext, (y0 + r) % Config.height ext)

section
variable {ext : Bool} (d : Plane) {x0 y0 rows cols : Nat} {spr : Nat → Nat → Bool}

theorem drawSprite_eq_plotAll :
    drawSprite ext d x0 y0 rows cols spr = plotAll ext (litPixels ext x0 y0 rows cols spr) (d, false) := by
  simp only [drawSprite, drawRow, plotAll, litPixels, List.foldl_flatMap, List.foldl_map, List.foldl_filter]

theorem mem_litPixels {x y : Nat} : (x, y) ∈ litPixels ext x0 y0 rows cols spr ↔
    ∃ r c, r < rows ∧ c < cols ∧ spr r c = true ∧ landsOn ext x0 y0 r c x y := by
  simp only [litPixels, List.mem_flatMap, List.mem_map, List.mem_filter, List.mem_range, Prod.mk.injEq, landsOn]
  exact exists_congr fun r => ⟨fun ⟨hr, c, ⟨hc, hb⟩, h⟩ => ⟨c, hr, hc, hb, h⟩,
    fun ⟨c, hr, hc, hb, h⟩ => ⟨hr, c, ⟨hc, hb⟩, h⟩⟩

theorem onScreen_of_mem_litPixels {p : Nat × Nat} (hp : p ∈ litPixels ext x0 y0 rows cols spr) : OnScreen ext p := by
  obtain ⟨r, c, -, -, -, hx, hy⟩ := mem_litPixels.mp hp
  exact ⟨hx ▸ Nat.mod_lt _ (width_pos ext), hy ▸ Nat.mod_lt _ (height_pos ext)⟩

/-- A draw touches no byte outside the current resolution (R162). -/
theorem get_drawSprite_out {k : Nat} (hk : planeBytes ext ≤ k) :
    (drawSprite ext d x0 y0 rows cols spr).1.get k = d.get k := by
  refine drawSprite_induction (P := fun acc => acc.1.get k = d.get k) d x0 y0 rows cols spr rfl ?_
  intro acc r c hacc _ _ _
  have hbyte := pixelByte_lt (Nat.mod_lt (x0 + c) (width_pos ext)) (Nat.mod_lt (y0 + r) (height_pos ext))
  exact (get_setPix_ne _ _ _ _ _ (Nat.ne_of_gt (Nat.lt_of_lt_of_le hbyte hk))).trans hacc

/-- Two cells of a sprite no larger than the screen that land on one pixel are one cell. -/
theorem landsOn_inj (hrows : rows ≤ Config.height ext) (hcols : cols ≤ Config.width ext) {r c r' c' x y : Nat}
    (hr : r < rows) (hc : c < cols) (hr' : r' < rows) (hc' : c' < cols) (h : landsOn ext x0 y0 r c x y)
    (h' : landsOn ext x0 y0 r' c' x y) : r = r' ∧ c = c' :=
  ⟨eq_of_add_mod_eq (Nat.lt_of_lt_of_le hr hrows) (Nat.lt_of_lt_of_le hr' hrows) (h.2.trans h'.2.symm),
    eq_of_add_mod_eq (Nat.lt_of_lt_of_le hc hcols) (Nat.lt_of_lt_of_le hc' hcols) (h.1.trans h'.1.symm)⟩

variable (hrows : rows ≤ Config.height ext) (hcols : cols ≤ Config.width ext)
include hrows hcols

theorem nodup_litPixels : (litPixels ext x0 y0 rows cols spr).Nodup := by
  refine List.nodup_flatMap.mpr ⟨fun r _ => (List.nodup_range.filter _).map_on fun c hc c' hc' h => ?_,
    List.nodup_range.imp_of_mem fun {r r'} hr hr' hne p hp hp' => hne ?_⟩
  · simp only [List.mem_filter, List.mem_range] at hc hc'
    exact eq_of_add_mod_eq (Nat.lt_of_lt_of_le hc.1 hcols) (Nat.lt_of_lt_of_le hc'.1 hcols) (Prod.ext_iff.mp h).1
  · obtain ⟨c, -, rfl⟩ := List.mem_map.mp hp
    obtain ⟨c', -, h⟩ := List.mem_map.mp hp'
    exact eq_of_add_mod_eq (Nat.lt_of_lt_of_le (List.mem_range.mp hr) hrows)
      (Nat.lt_of_lt_of_le (List.mem_range.mp hr') hrows) (Prod.ext_iff.mp h).2.symm

theorem getPix_drawSprite {x : Nat} (y : Nat) (hx : x < Config.width ext) :
    getPix ext (drawSprite ext d x0 y0 rows cols spr).1 x y =
      if (x, y) ∈ litPixels ext x0 y0 rows cols spr then !getPix ext d x y else getPix ext d x y := by
  rw [drawSprite_eq_plotAll]
  exact getPix_plotAll (fun _ => onScreen_of_mem_litPixels) (nodup_litPixels hrows hcols) (d, false) hx

theorem drawSprite_collision : (drawSprite ext d x0 y0 rows cols spr).2 = true ↔
    ∃ r c, r < rows ∧ c < cols ∧ spr r c = true ∧
      getPix ext d ((x0 + c) % Config.width ext) ((y0 + r) % Config.height ext) = true := by
  rw [drawSprite_eq_plotAll, plotAll_collision (fun _ => onScreen_of_mem_litPixels) (nodup_litPixels hrows hcols)]
  constructor
  · rintro (h | ⟨⟨x, y⟩, hmem, hon⟩)
    · cases h
    · obtain ⟨r, c, hr, hc, hb, rfl, rfl⟩ := mem_litPixels.mp hmem
      exact ⟨r, c, hr, hc, hb, hon⟩
  · rintro ⟨r, c, hr, hc, hb, hon⟩
    exact .inr ⟨(_, _), mem_litPixels.mpr ⟨r, c, hr, hc, hb, rfl, rfl⟩, hon⟩

theorem drawSprite_drawSprite :
    (drawSprite ext (drawSprite ext d x0 y0 rows cols spr).1 x0 y0 rows cols spr).1 = d := by
  refine plane_ext (ext := ext) (fun x y hx hy => ?_) fun k hk => ?_
  · rw [getPix_drawSprite _ hrows hcols y hx, getPix_drawSprite d hrows hcols y hx]
    split <;> simp
  · rw [get_drawSprite_out _ hk, get_drawSprite_out _ hk]

theorem drawSprite_drawSprite_collision :
    (drawSprite ext (drawSprite ext d x0 y0 rows cols spr).1 x0 y0 rows cols spr).2 = true ↔
      ∃ r c, r < rows ∧ c < cols ∧ spr r c = true ∧
        getPix ext d ((x0 + c) % Config.width ext) ((y0 + r) % Config.height ext) = false := by
  rw [drawSprite_collision _ hrows hcols]
  refine exists_congr fun r => exists_congr fun c => and_congr_right fun hr => and_congr_right fun hc =>
    and_congr_right fun hb => ?_
  rw [getPix_drawSprite d hrows hcols _ (Nat.mod_lt _ (width_pos ext)),
    if_pos (mem_litPixels.mpr ⟨r, c, hr, hc, hb, rfl, rfl⟩), Bool.not_eq_true']

end

/-! ## Scrolling (R166 to R168) -/

theorem getPix_scrollDown (ext : Bool) (n : Nat) (d : Plane) {x y : Nat} (hx : x < Config.width ext)
    (hy : y < Config.height ext) :
    getPix ext (scrollDown ext n d) x y = if y ≥ n then getPix ext d x (y - n) else false := by
  rw [scrollDown, getPix_repaint ext _ d hx hy, Bool.if_false_right]

theorem get_scrollDown_out (ext : Bool) (n : Nat) (d : Plane) {k : Nat} (hk : planeBytes ext ≤ k) :
    (scrollDown ext n d).get k = d.get k := get_repaint_out ext _ d hk

theorem getPix_scrollRight (ext : Bool) (d : Plane) {x y : Nat} (hx : x < Config.width ext)
    (hy : y < Config.height ext) :
    getPix ext (scrollRight ext d) x y = if x ≥ 4 then getPix ext d (x - 4) y else false := by
  rw [scrollRight, getPix_repaint ext _ d hx hy, Bool.if_false_right]

theorem get_scrollRight_out (ext : Bool) (d : Plane) {k : Nat} (hk : planeBytes ext ≤ k) :
    (scrollRight ext d).get k = d.get k := get_repaint_out ext _ d hk

theorem getPix_scrollLeft (ext : Bool) (d : Plane) {x y : Nat} (hx : x < Config.width ext)
    (hy : y < Config.height ext) :
    getPix ext (scrollLeft ext d) x y = if x + 4 < Config.width ext then getPix ext d (x + 4) y else false := by
  rw [scrollLeft, getPix_repaint ext _ d hx hy, Bool.if_false_right]

theorem get_scrollLeft_out (ext : Bool) (d : Plane) {k : Nat} (hk : planeBytes ext ≤ k) :
    (scrollLeft ext d).get k = d.get k := get_repaint_out ext _ d hk

theorem scrollDown_zero (ext : Bool) (d : Plane) : scrollDown ext 0 d = d :=
  plane_ext (fun _ _ hx hy => (getPix_scrollDown ext 0 d hx hy).trans (if_pos (Nat.zero_le _)))
    fun _ => get_scrollDown_out ext 0 d

/-! ## What the instructions do to the plane (R162, R165 to R172; 10_state.md R35) -/

/-- The instructions that write the plane. -/
inductive PaintsPlane : Instr → Prop where
  | cls : PaintsPlane .cls
  | scd (n : Fin 16) : PaintsPlane (.scd n)
  | scr : PaintsPlane .scr
  | scl : PaintsPlane .scl
  | drw (x y : Reg) (n : Fin 16) : PaintsPlane (.drw x y n)
  | drwExt (x y : Reg) : PaintsPlane (.drwExt x y)

/-- What holds of the halt and of the effect holds behind the range check. -/
theorem guardRange_induction {P : State → Prop} {n : Nat} {t : State} (hhalt : P (s.raiseHalt .memoryOutOfBounds))
    (heffect : P t) : P (guardRange s n t) := by
  rcases guardRange_cases s n t with ⟨-, e⟩ | ⟨-, e⟩ <;> rw [e]
  · exact hhalt
  · exact heffect

theorem State.skipOnKey_plane (b : Byte) (down : Bool) : (s.skipOnKey b down).plane = s.plane := by
  rcases s.skipOnKey_cases b down with ⟨-, e⟩ | ⟨-, e⟩ <;> rw [e] <;> rfl

theorem State.writeResultAndFlag_plane (x : Reg) (rf : Byte × Bool) : (s.writeResultAndFlag x rf).plane = s.plane := by
  rw [s.writeResultAndFlag_eq]

/-- Every other instruction keeps the plane. -/
theorem exec_plane {i : Instr} {s t : State} (hi : ¬ PaintsPlane i) (h : exec i s = .next t) : t.plane = s.plane := by
  cases i with
  | cls => exact absurd .cls hi
  | scd n => exact absurd (.scd n) hi
  | scr => exact absurd .scr hi
  | scl => exact absurd .scl hi
  | drw x y n => exact absurd (.drw x y n) hi
  | drwExt x y => exact absurd (.drwExt x y) hi
  | ret => simp only [exec, execRet] at h; split_ifs at h <;> cases h <;> rfl
  | call nnn => simp only [exec, execCall] at h; split_ifs at h <;> cases h <;> rfl
  | ldVxK x =>
    obtain rfl := Host.Outcome.next.inj h
    cases s.lowestKey with
    | none => rfl
    | some k => cases s.params.fx0aWritesKey <;> rfl
  | skp _ | sknp _ => obtain rfl := Host.Outcome.next.inj h; exact s.skipOnKey_plane _ _
  | addReg _ _ | subReg _ _ | shr _ _ | subnReg _ _ | shl _ _ =>
    obtain rfl := Host.Outcome.next.inj h; exact s.writeResultAndFlag_plane _ _
  | ldB _ | storeRegs _ | loadRegs _ =>
    obtain rfl := Host.Outcome.next.inj h
    exact guardRange_induction s (P := (·.plane = s.plane)) rfl rfl
  | togi | exitReq | low | high | sys _ | jp _ | seImm _ _ | sneImm _ _ | seReg _ _ | ldImm _ _ | addImm _ _ | ldReg _ _
  | orReg _ _ | andReg _ _ | xorReg _ _ | sneReg _ _ | ldI _ | jpV0 _ | rnd _ _ | ldVxDt _ | ldDtVx _ | ldStVx _
  | addI _ | ldF _ | ldHF _ => obtain rfl := Host.Outcome.next.inj h; rfl

theorem exec_cls : exec .cls s = .next { s with plane := Bytes.zeros Config.dispBytes, pc := s.pc + 2 } :=
  congrArg Host.Outcome.next (State.advance_eq _ 2)

theorem exec_scd (n : Fin 16) :
    exec (.scd n) s = .next { s with plane := scrollDown s.ext n.val s.plane, pc := s.pc + 2 } :=
  congrArg Host.Outcome.next (State.advance_eq _ 2)

theorem exec_scr : exec .scr s = .next { s with plane := scrollRight s.ext s.plane, pc := s.pc + 2 } :=
  congrArg Host.Outcome.next (State.advance_eq _ 2)

theorem exec_scl : exec .scl s = .next { s with plane := scrollLeft s.ext s.plane, pc := s.pc + 2 } :=
  congrArg Host.Outcome.next (State.advance_eq _ 2)

theorem exec_low : exec .low s = .next { s with ext := false, pc := s.pc + 2 } :=
  congrArg Host.Outcome.next (State.advance_eq _ 2)

theorem exec_high : exec .high s = .next { s with ext := true, pc := s.pc + 2 } :=
  congrArg Host.Outcome.next (State.advance_eq _ 2)

theorem State.drawAt_eq (x y : Reg) (rows cols : Nat) (spr : Nat → Nat → Bool) :
    s.drawAt x y rows cols spr =
      { s with
        plane := (drawSprite s.ext s.plane (s.getV x).toNat (s.getV y).toNat rows cols spr).1
        v := s.v.set 15 (bit (drawSprite s.ext s.plane (s.getV x).toNat (s.getV y).toNat rows cols spr).2)
        pc := s.pc + 2 } := State.advance_eq _ 2

/-- A draw behind its range check touches no byte outside the current resolution. -/
theorem get_plane_guardRange_drawAt_out (n : Nat) (x y : Reg) (rows cols : Nat) (spr : Nat → Nat → Bool) {k : Nat}
    (hk : planeBytes s.ext ≤ k) :
    (guardRange s n (s.drawAt x y rows cols spr)).plane.get k = s.plane.get k :=
  guardRange_induction s (P := (·.plane.get k = s.plane.get k)) rfl (get_drawSprite_out _ hk)

/-- No instruction but 00E0 touches a byte outside the current resolution (R162). -/
theorem exec_get_plane_out {i : Instr} {s t : State} (hcls : i ≠ .cls) (h : exec i s = .next t) {k : Nat}
    (hk : planeBytes s.ext ≤ k) : t.plane.get k = s.plane.get k := by
  by_cases hi : PaintsPlane i
  · cases hi with
    | cls => exact absurd rfl hcls
    | scd n => obtain rfl := Host.Outcome.next.inj h; exact get_scrollDown_out s.ext n.val s.plane hk
    | scr => obtain rfl := Host.Outcome.next.inj h; exact get_scrollRight_out s.ext s.plane hk
    | scl => obtain rfl := Host.Outcome.next.inj h; exact get_scrollLeft_out s.ext s.plane hk
    | drw _ _ _ | drwExt _ _ =>
      obtain rfl := Host.Outcome.next.inj h; exact get_plane_guardRange_drawAt_out s _ _ _ _ _ _ hk
  · rw [exec_plane hi h]

/-! ## The next tick in a new mode (60_exceptions.md R290) -/

theorem timerTick_ph : (timerTick s).ph = if s.ph + 1 ≥ Config.timerPeriod s.ext then 0 else s.ph + 1 :=
  apply_ite State.ph _ _ _

/-- The next cycle's tick counts `PH` up to the period of the current mode. -/
theorem beginCycle_ph_of_timerPeriod {n : Nat} (hn : Config.timerPeriod s.ext = n) :
    (s.ph + 1 < n → (beginCycle s).ph = s.ph + 1) ∧ (s.ph + 1 ≥ n → (beginCycle s).ph = 0) := by
  rw [beginCycle_ph, timerTick_ph, hn]
  exact ⟨fun h => if_neg (Nat.not_le.mpr h), fun h => if_pos h⟩

end Sys2Proof.Machine

namespace Sys2Proof.Proofs.Display

open Sys2Proof Sys2Proof.Machine Sys2Proof.Claims

/-- Settles O30: a pixel is its byte and its bit there, and two pixels that agree in both are one. -/
theorem pixelIsOneBit : Obligations.PixelIsOneBit := fun ext d x y hx hy =>
  ⟨pixelByte_lt hx hy, getPix_eq ext d x y, fun b =>
    ⟨fun _ _ hx' _ => getPix_setPix d b ⟨hx, hy⟩ hx', fun _ => get_setPix_ne ext d x y b⟩⟩

/-- Settles O31: draws and scrolls keep the bytes outside the current resolution, which is D[0..255] when EXT = 0. -/
theorem planeMeaningFollowsMode : Obligations.PlaneMeaningFollowsMode := by
  refine ⟨fun i s t hext hcls h k hk => exec_get_plane_out hcls h (by rwa [hext]), fun s t h k _ => ?_,
    fun s t h => ?_, fun d x y _ _ => getPix_high_eq_low d x y⟩
  · obtain rfl := Host.Outcome.next.inj ((exec_cls s).symm.trans h)
    exact Bytes.get_zeros k
  · rcases h with h | h
    · exact exec_plane (i := .low) nofun h
    · exact exec_plane (i := .high) nofun h

/-- Settles O32: a draw plots the pixels under its set bits, which are distinct, so each is inverted once. -/
theorem drawInvertsPixelsUnderSetBits : Obligations.DrawInvertsPixelsUnderSetBits := by
  intro ext d x0 y0 rows cols spr hrows hcols
  refine ⟨fun x y hx _ => ?_, drawSprite_collision d hrows hcols,
    fun k => get_drawSprite_out d⟩
  rw [getPix_drawSprite d hrows hcols y hx, ← mem_litPixels]
  exact ⟨fun h => if_pos h, fun h => if_neg h⟩

/-- Settles O33: a second draw inverts the same pixels again, and a sprite of 16 by 16 is no larger than the screen. -/
theorem drawingTwiceRestoresThePlane : Obligations.DrawingTwiceRestoresThePlane := by
  intro ext d x0 y0 rows cols spr hrows hcols
  have hrows := Nat.le_trans hrows (sixteen_le_height ext)
  have hcols := Nat.le_trans hcols (sixteen_le_width ext)
  exact ⟨fun _ _ _ _ _ _ => landsOn_inj hrows hcols, drawSprite_drawSprite d hrows hcols,
    drawSprite_drawSprite_collision d hrows hcols⟩

/-- Settles O36: scrolling down is a repaint, and with N = 0 it repaints every pixel as it was. -/
theorem scrollDownMovesRows : Obligations.ScrollDownMovesRows := fun s n =>
  ⟨hasRow_rowOf (.scd n), _, exec_scd s n, fun _ _ => getPix_scrollDown s.ext n.val s.plane,
    fun _ => get_scrollDown_out s.ext n.val s.plane, fun hn => hn ▸ scrollDown_zero s.ext s.plane⟩

/-- Settles O37: scrolling sideways is a repaint. -/
theorem scrollSidewaysMovesColumns : Obligations.ScrollSidewaysMovesColumns := fun s =>
  ⟨hasRow_rowOf .scr, hasRow_rowOf .scl,
    ⟨_, exec_scr s, fun _ _ => getPix_scrollRight s.ext s.plane, fun _ => get_scrollRight_out s.ext s.plane⟩,
    ⟨_, exec_scl s, fun _ _ => getPix_scrollLeft s.ext s.plane, fun _ => get_scrollLeft_out s.ext s.plane⟩⟩

/-- Settles O34: the range check comes first, and the coordinates are those of the old V. -/
theorem drawNormalSprite : Obligations.DrawNormalSprite := fun s x y n _ =>
  ⟨hasRow_rowOf (.drw x y n), fun h => congrArg Host.Outcome.next (guardRange_of_gt s _ h), fun h =>
    ⟨_, _, congrArg Host.Outcome.next ((guardRange_of_le s _ h).trans (s.drawAt_eq x y n.val 8 s.spriteBit)), rfl⟩⟩

/-- Settles O35: as O34, and no part of the instruction but the draw reads EXT. -/
theorem drawExtendedSprite : Obligations.DrawExtendedSprite := fun s x y =>
  ⟨hasRow_rowOf (.drwExt x y), fun h => congrArg Host.Outcome.next (guardRange_of_gt s _ h), fun h =>
    ⟨_, _, congrArg Host.Outcome.next ((guardRange_of_le s _ h).trans (s.drawAt_eq x y 16 16 s.spriteBitExt)), rfl⟩⟩

/-- Settles O38: every byte of the cleared plane is 0, and the next tick reads the new EXT. -/
theorem clearAndModeInstructions : Obligations.ClearAndModeInstructions :=
  ⟨hasRow_rowOf .cls, hasRow_rowOf .low, hasRow_rowOf .high, fun s =>
    ⟨⟨_, exec_cls s, fun k _ => Bytes.get_zeros k, fun x y _ _ => getPix_zeros s.ext x y⟩,
      ⟨_, exec_low s, rfl, rfl, beginCycle_ph_of_timerPeriod _ rfl⟩,
      ⟨_, exec_high s, rfl, rfl, rfl, beginCycle_ph_of_timerPeriod _ rfl⟩⟩⟩

/-- Settles O39: each query reads EXT, the plane or ST. -/
theorem hostQueriesReadTheState : Obligations.HostQueriesReadTheState := by
  refine fun s => ⟨fun x y hx hy => if_pos ⟨hx, hy⟩, fun x y h => if_neg h, fun h => ?_, fun h => ?_, rfl,
    decide_eq_true_iff⟩
  · simp [getWidth, getHeight, h]
  · simp [getWidth, getHeight, h]

end Sys2Proof.Proofs.Display
end

