-- ==== Sys2Proof/Proofs/Alu.lean ====
section
/-! PROOFS. The statements about register arithmetic (43_alu.md): the order of the two writes (O43), loads and logic
(O40), sum and differences (O41), shifts (O42), and the random byte (O44). -/

namespace Sys2Proof.Machine

open Sys2Proof.Claims

variable (s : State)

/-! ## Instructions that write VX alone (R201 to R206, R212) -/

theorem exec_of_setV {i : Instr} {x : Reg} {b : Byte} (hexec : exec i s = .next ((s.setV x b).advance 2)) :
    exec i s = .next { s with v := s.v.set x.val b, pc := s.pc + 2 } :=
  hexec.trans (congrArg Host.Outcome.next (State.advance_eq _ 2))

/-- The exact sum modulo 256 of 7XNN is the one of 8XY4, without its flag. -/
theorem exec_addImm (x : Reg) (nn : Byte) :
    exec (.addImm x nn) s = .next ((s.setV x (s.getV x + nn)).advance 2) := by
  rw [← addFlag_fst]
  rfl

theorem exec_rnd_zero (x : Reg) : exec (.rnd x 0) s = .next ((s.setV x 0).advance 2) :=
  congrArg (fun b => Host.Outcome.next ((s.setV x b).advance 2)) (BitVec.and_zero (x := s.input.rand))

/-! ## Result and flag in exact arithmetic are those of bytes (R207 to R211) -/

theorem addFlag_eq (a b : Byte) : addFlag a b = (a + b, decide (a.toNat + b.toNat > 255)) :=
  Prod.ext (addFlag_fst a b) rfl

theorem subFlag_eq (a b : Byte) : subFlag a b = (a - b, decide (a.toNat ≥ b.toNat)) :=
  Prod.ext (subFlag_fst a b) rfl

theorem shrFlag_eq (a : Byte) : shrFlag a = (a >>> 1, a.getLsbD 0) := by
  have hres : BitVec.ofNat 8 (a.toNat / 2) = a >>> 1 := by
    apply BitVec.eq_of_toNat_eq
    simp only [BitVec.toNat_ofNat, BitVec.toNat_ushiftRight, Nat.shiftRight_eq_div_pow]
    omega
  have hflag : decide (a.toNat % 2 = 1) = a.getLsbD 0 := by
    rw [BitVec.getLsbD, Nat.testBit_zero]
  exact Prod.ext hres hflag

theorem shlFlag_eq (a : Byte) : shlFlag a = (a <<< 1, a.getLsbD 7) := by
  have hres : BitVec.ofNat 8 (a.toNat * 2 % 256) = a <<< 1 := by
    apply BitVec.eq_of_toNat_eq
    simp only [BitVec.toNat_ofNat, BitVec.toNat_shiftLeft, Nat.shiftLeft_eq]
    omega
  have hflag : decide (a.toNat / 128 = 1) = a.getLsbD 7 := by
    rw [BitVec.getLsbD, Nat.testBit_eq_decide_div_mod_eq]
    exact decide_eq_decide.mpr (by omega)
  exact Prod.ext hres hflag

/-! ## The two writes (R200) -/

theorem State.writeResultAndFlag_eq_flagWrites (x : Reg) (res : Byte) (f : Bool) :
    s.writeResultAndFlag x (res, f) = { s with v := flagWrites s.params s.v x res f } := by
  cases h : s.params.vfOrder <;> simp only [State.writeResultAndFlag, flagWrites, h] <;> rfl

theorem exec_of_writeResultAndFlag {i : Instr} {x : Reg} {rf : Byte × Bool} {res : Byte} {f : Bool}
    (hexec : exec i s = .next ((s.writeResultAndFlag x rf).advance 2)) (hrf : rf = (res, f)) :
    exec i s = .next { s with v := flagWrites s.params s.v x res f, pc := s.pc + 2 } := by
  rw [hexec, hrf, s.writeResultAndFlag_eq_flagWrites, State.advance_eq]
  rfl

/-- 8XY4 to 8XYE write their result and flag and go to `A + 2`. -/
theorem exec_of_resultAndFlag {i : Instr} {x : Reg} {res : Byte} {f : Bool}
    (h : resultAndFlag s i = some (x, res, f)) :
    exec i s = .next { s with v := flagWrites s.params s.v x res f, pc := s.pc + 2 } := by
  cases i with
  | addReg _ _ => cases h; exact exec_of_writeResultAndFlag s rfl (addFlag_eq _ _)
  | subReg _ _ | subnReg _ _ => cases h; exact exec_of_writeResultAndFlag s rfl (subFlag_eq _ _)
  | shr _ _ => cases h; exact exec_of_writeResultAndFlag s rfl (shrFlag_eq _)
  | shl _ _ => cases h; exact exec_of_writeResultAndFlag s rfl (shlFlag_eq _)
  | _ => cases h

/-- The result and the flag do not depend on VF_ORDER. -/
theorem resultAndFlag_withVfOrder (i : Instr) (o : VfOrder) :
    resultAndFlag { s with params := { s.params with vfOrder := o } } i = resultAndFlag s i := by
  cases i <;> rfl

section
variable {p : Params} (v : Bytes 16) (x : Reg) (res : Byte) (f : Bool)

theorem get_flagWrites_of_flagLast (hp : p.vfOrder = .flagLast) : (flagWrites p v x res f).get 15 = bit f := by
  simp [flagWrites, hp]

theorem get_flagWrites_of_resultLast (hp : p.vfOrder = .resultLast) : (flagWrites p v x res f).get x.val = res := by
  simp [flagWrites, hp]

/-- The two writes commute when they go to two registers. -/
theorem flagWrites_congr {x : Reg} (hx : x ≠ 15) (p q : Params) : flagWrites p v x res f = flagWrites q v x res f := by
  have hcomm : (v.set x.val res).set 15 (bit f) = (v.set 15 (bit f)).set x.val res :=
    v.set_comm res (bit f) (Fin.val_ne_of_ne hx)
  cases hp : p.vfOrder <;> cases hq : q.vfOrder <;> simp only [flagWrites, hp, hq, hcomm]

theorem get_flagWrites_of_ne {x : Reg} (hx : x ≠ 15) :
    (flagWrites p v x res f).get x.val = res ∧ (flagWrites p v x res f).get 15 = bit f := by
  constructor
  · rw [flagWrites_congr v res f hx p { p with vfOrder := .resultLast }]
    exact get_flagWrites_of_resultLast v x res f rfl
  · rw [flagWrites_congr v res f hx p { p with vfOrder := .flagLast }]
    exact get_flagWrites_of_flagLast v x res f rfl

end

end Sys2Proof.Machine

namespace Sys2Proof.Proofs.Alu

open Sys2Proof Sys2Proof.Machine

/-- Settles O43: the write made last is the one a register ends with, and two writes to two registers commute. -/
theorem writeOrderMattersOnlyForVf : Obligations.WriteOrderMattersOnlyForVf := by
  intro s i x res f h
  refine ⟨_, exec_of_resultAndFlag s h, get_flagWrites_of_flagLast s.v x res f,
    get_flagWrites_of_resultLast s.v x res f, get_flagWrites_of_ne s.v res f, fun hx o => ?_⟩
  rw [exec_of_resultAndFlag _ ((resultAndFlag_withVfOrder s i o).trans h), flagWrites_congr s.v res f hx s.params]

/-- Settles O40: each is one write of VX. -/
theorem loadsAndLogicWriteVxOnly : Obligations.LoadsAndLogicWriteVxOnly := fun s x y nn =>
  ⟨hasRow_rowOf (.ldImm x nn), hasRow_rowOf (.addImm x nn), hasRow_rowOf (.ldReg x y), hasRow_rowOf (.orReg x y),
    hasRow_rowOf (.andReg x y), hasRow_rowOf (.xorReg x y), exec_of_setV s rfl, exec_of_setV s (exec_addImm s x nn),
    exec_of_setV s rfl, exec_of_setV s rfl, exec_of_setV s rfl, exec_of_setV s rfl⟩

/-- Settles O41: the three are cases of the general rule for 8XY4 to 8XYE. -/
theorem addAndSubtractWithFlag : Obligations.AddAndSubtractWithFlag := fun s x y =>
  ⟨hasRow_rowOf (.addReg x y), hasRow_rowOf (.subReg x y), hasRow_rowOf (.subnReg x y), exec_of_resultAndFlag s rfl,
    exec_of_resultAndFlag s rfl, exec_of_resultAndFlag s rfl⟩

/-- Settles O42: as O41, for the two shifts. -/
theorem shiftsReportTheBitShiftedOut : Obligations.ShiftsReportTheBitShiftedOut := fun s x y =>
  ⟨hasRow_rowOf (.shr x y), hasRow_rowOf (.shl x y), exec_of_resultAndFlag s rfl, exec_of_resultAndFlag s rfl⟩

/-- Settles O44: one write of VX; AND with 0 is 0. -/
theorem rndMasksTheRandomByte : Obligations.RndMasksTheRandomByte := fun s x nn =>
  ⟨hasRow_rowOf (.rnd x nn), exec_of_setV s rfl, exec_of_setV s (exec_rnd_zero s x)⟩

end Sys2Proof.Proofs.Alu
end

