-- ==== Sys2Proof/Proofs/Index.lean ====
section
/-! PROOFS. The statements about the index register and memory transfer (44_index_memory.md): decimal digits (O46), the bulk
store (O47) and load (O48), that the load undoes the store (O49), and the instructions that set `I` (O45). -/

namespace Sys2Proof.Machine

variable (s : State)

/-! ## Instructions that set I (R230 to R233) -/

theorem exec_of_setI {i : Instr} {n : Nat} {w : Word} (hexec : exec i s = .next ((s.setI n).advance 2))
    (hw : BitVec.ofNat 16 n = w) : exec i s = .next { s with i := w, pc := s.pc + 2 } := by
  subst hw
  exact hexec.trans (congrArg Host.Outcome.next (State.advance_eq _ 2))

/-- `I + V[x]` in exact arithmetic wraps as 16-bit words do (R231). -/
theorem ofNat_word_add_byte (w : Word) (b : Byte) : BitVec.ofNat 16 (w.toNat + b.toNat) = w + b.setWidth 16 := by
  rw [ofNat_toNat_add, BitVec.ofNat_toNat]

/-- A glyph's offset in exact arithmetic is the product of 16-bit words (R232, R233). -/
theorem ofNat_byte_mul (b : Byte) (n : Nat) :
    BitVec.ofNat 16 (b.toNat * n) = b.setWidth 16 * BitVec.ofNat 16 n := by
  rw [BitVec.ofNat_mul, BitVec.ofNat_toNat]

theorem exec_ldF (x : Reg) :
    exec (.ldF x) s = .next { s with i := (s.getV x).setWidth 16 * 5, pc := s.pc + 2 } :=
  exec_of_setI s rfl (ofNat_byte_mul _ 5)

theorem exec_ldHF (x : Reg) :
    exec (.ldHF x) s = .next { s with i := 0x50 + (s.getV x).setWidth 16 * 10, pc := s.pc + 2 } :=
  exec_of_setI s rfl (by rw [BitVec.ofNat_add, ofNat_byte_mul]; rfl)

/-! ## What FX33, FX55 and FX65 answer within memory (R234 to R236) -/

/-- A state reads its bytes from its memory and parameters alone (10_state.md R37). -/
theorem State.readByte_congr {t u : State} (hmem : u.mem = t.mem) (hparams : u.params = t.params) (a : Nat) :
    u.readByte a = t.readByte a := by
  rw [State.readByte, State.readByte, hmem, hparams]

theorem State.indexAfter_eq (x : Reg) :
    s.indexAfter x = if s.inc then s.i + BitVec.ofNat 16 (x.val + 1) else s.i := by
  split
  · next h => exact s.indexAfter_of_inc_true x h
  · next h => exact s.indexAfter_of_inc_false x (Bool.eq_false_iff.mpr h)

theorem exec_ldB_eq (x : Reg) (h : s.i.toNat + 3 ≤ 4096) :
    exec (.ldB x) s = .next { s with
      mem := (s.writeBytes s.i.toNat (decimalDigits (s.getV x))).mem
      pc := s.pc + 2 } := by
  rw [exec_ldB_of_le s x h, State.advance_eq]
  rfl

theorem exec_storeRegs_eq (x : Reg) (h : s.i.toNat + (x.val + 1) ≤ 4096) :
    exec (.storeRegs x) s = .next { s with
      mem := (s.writeBytes s.i.toNat (s.regRange x)).mem
      i := if s.inc then s.i + BitVec.ofNat 16 (x.val + 1) else s.i
      pc := s.pc + 2 } := by
  rw [exec_storeRegs_of_le s x h, State.advance_eq, State.indexAfter_eq]
  rfl

theorem exec_loadRegs_eq (x : Reg) (h : s.i.toNat + (x.val + 1) ≤ 4096) :
    exec (.loadRegs x) s = .next { s with
      v := s.loadedRegs x
      i := if s.inc then s.i + BitVec.ofNat 16 (x.val + 1) else s.i
      pc := s.pc + 2 } := by
  rw [exec, execLoadRegs, guardRange_of_le s _ h, State.advance_eq, State.indexAfter_eq]
  rfl

/-! ## The bytes stored and the registers loaded -/

/-- After a store of a byte's decimal digits each address holds its digit, which fits a byte. -/
theorem State.toNat_readByte_writeBytes_decimalDigits (hm : Memory.wf (resetByte s.params) s.mem) {a k d : Nat} {b : Byte}
    (ha : a + 3 ≤ 4096) (hk : (decimalDigits b)[k]? = some (BitVec.ofNat 8 d)) (hd : d < 256) :
    ((s.writeBytes a (decimalDigits b)).readByte (a + k)).toNat = d := by
  obtain ⟨hlt, hdigit⟩ := List.getElem?_eq_some_iff.mp hk
  rw [s.readByte_writeBytes_in hm ha hlt, hdigit]
  exact Nat.mod_eq_of_lt hd

/-- After FX55's store the `k`-th address reads as `V[k]`. -/
theorem State.readByte_writeBytes_regRange (hm : Memory.wf (resetByte s.params) s.mem) {a : Nat} {x k : Reg}
    (ha : a + (x.val + 1) ≤ 4096) (hk : k ≤ x) : (s.writeBytes a (s.regRange x)).readByte (a + k.val) = s.getV k := by
  have hlen : k.val < (s.regRange x).length := by
    rw [State.regRange_length]
    exact Nat.lt_succ_of_le hk
  rw [s.readByte_writeBytes_in hm (by rwa [State.regRange_length]) hlen, State.regRange_getElem]
  rfl

theorem State.get_loadedRegs (x k : Reg) :
    (s.loadedRegs x).get k.val = if k ≤ x then s.readByte (s.i.toNat + k.val) else s.getV k :=
  Bytes.get_build _ k.isLt

end Sys2Proof.Machine

namespace Sys2Proof.Proofs.Index

open Sys2Proof Sys2Proof.Machine

/-- Settles O46: the store is of the three digits, each of which fits a byte; the halt is the range check's (O22). -/
theorem bcdStoresDecimalDigits : Obligations.BcdStoresDecimalDigits := by
  intro s x
  obtain ⟨hhalts, -⟩ := Memory.rangeCheckPrecedesAnyWrite s (.ldB x) 3 rfl
  refine ⟨hasRow_rowOf (.ldB x), hhalts, fun ⟨hmem, _⟩ hfit => ?_⟩
  have hread {k d : Nat} := s.toNat_readByte_writeBytes_decimalDigits (k := k) (d := d) (b := s.getV x) hmem hfit
  exact ⟨_, exec_ldB_eq s x hfit, rfl, hread (k := 0) rfl (by omega), hread (k := 1) rfl (by omega),
    hread (k := 2) rfl (by omega), fun a ha => s.readByte_writeBytes_out _ ha⟩

/-- Settles O47: the store is of the list V0..VX; the halt is the range check's (O22). -/
theorem storeRegsWritesV0ToVx : Obligations.StoreRegsWritesV0ToVx := by
  intro s x
  obtain ⟨hhalts, -⟩ := Memory.rangeCheckPrecedesAnyWrite s (.storeRegs x) (x.val + 1) rfl
  refine ⟨hasRow_rowOf (.storeRegs x), hhalts, fun ⟨hmem, _⟩ hfit => ?_⟩
  refine ⟨_, exec_storeRegs_eq s x hfit, rfl, fun k => s.readByte_writeBytes_regRange hmem hfit, fun a ha => ?_⟩
  exact s.readByte_writeBytes_out _ (by rwa [State.regRange_length])

/-- Settles O48: VX is the last register that is loaded; the halt is the range check's (O22). -/
theorem loadRegsReadsV0ToVx : Obligations.LoadRegsReadsV0ToVx := by
  intro s x
  obtain ⟨hhalts, -⟩ := Memory.rangeCheckPrecedesAnyWrite s (.loadRegs x) (x.val + 1) rfl
  refine ⟨hasRow_rowOf (.loadRegs x), hhalts, fun hfit => ?_⟩
  refine ⟨_, exec_loadRegs_eq s x hfit, rfl, fun k hk => ?_, fun k hk => ?_⟩
  · exact (s.get_loadedRegs x k).trans (if_pos hk)
  · exact (s.get_loadedRegs x k).trans (if_neg (Fin.not_le.mpr hk))

/-- Settles O49: the bytes FX65 reads (O48) are those FX55 stored (O47). -/
theorem loadRegsUndoesStoreRegs : Obligations.LoadRegsUndoesStoreRegs := by
  intro s t u x hs hfit hstore hmem hparams hindex
  obtain ⟨-, -, hstores⟩ := storeRegsWritesV0ToVx s x
  obtain ⟨-, -, hloads⟩ := loadRegsReadsV0ToVx u x
  obtain ⟨t', ht', -, hstored, -⟩ := hstores hs hfit
  obtain rfl := Host.Outcome.next.inj (ht'.symm.trans hstore)
  obtain ⟨w, hload, -, hloaded, -⟩ := hloads (by rwa [hindex])
  refine ⟨w, hload, fun k hk => ?_⟩
  rw [hloaded k hk, State.readByte_congr hmem hparams, hindex, hstored k hk]

/-- Settles O45: each is one write of `I`, whose exact value modulo 65536 is that of 16-bit words. -/
theorem indexInstructionsSetI : Obligations.IndexInstructionsSetI := fun s nnn x =>
  ⟨hasRow_rowOf (.ldI nnn), hasRow_rowOf (.addI x), hasRow_rowOf (.ldF x), hasRow_rowOf (.ldHF x),
    exec_of_setI s rfl (BitVec.ofNat_toNat ..), exec_of_setI s rfl (ofNat_word_add_byte s.i (s.getV x)),
    exec_ldF s x, exec_ldHF s x⟩

end Sys2Proof.Proofs.Index
end

