-- ==== Sys2Proof/Proofs/TimersKeys.lean ====
section
/-! PROOFS. The statements about keys and timer registers (45_timers_keys.md): the key skips (O50), the wait for a key (O51),
and the timer registers (O52). -/

namespace Sys2Proof.Machine

open Sys2Proof.Claims

variable (s : State)

/-! ## An Advance runs its instruction after the tick (40_cycle.md R110) -/

theorem step_of_cycleInstr {i : Instr} (h : cycleInstr s = some i) : step s = exec i (beginCycle s) := by
  have hend : atEndOfProgram s = false :=
    Bool.eq_false_iff.mpr fun hend => by simp [cycleInstr_of_atEnd s hend] at h
  rw [cycleInstr_of_not_atEnd s hend] at h
  obtain ⟨op, hfetch, hdecode⟩ := Option.bind_eq_some_iff.mp h
  rw [step_of_fetchOpcode s hend hfetch, runOpcode, hdecode]

/-- The tick leaves `PC`, `PLEN` and memory, and so what the cycle fetches. -/
@[simp] theorem cycleInstr_beginCycle : cycleInstr (beginCycle s) = cycleInstr s := by
  simp [cycleInstr]

/-! ## Skips on a key (R260 to R262) -/

theorem State.skipOnKey_of_ge {v : Byte} (d : Bool) (hv : v.toNat ≥ 16) :
    s.skipOnKey v d = s.raiseHalt .keyOutOfRange := if_pos hv

theorem State.skipOnKey_of_lt {v : Byte} (d : Bool) (hv : v.toNat < 16) :
    s.skipOnKey v d = { s with pc := if s.keyDown v.toNat = d then s.pc + 4 else s.pc + 2 } := by
  rw [State.skipOnKey, if_neg (Nat.not_le.mpr hv), State.skipIf_eq]
  simp only [beq_iff_eq]

theorem exec_skp_of_lt {x : Reg} (hx : (s.getV x).toNat < 16) : exec (.skp x) s = .next { s with
    pc := if s.input.keys.getLsbD (s.getV x).toNat then s.pc + 4 else s.pc + 2 } :=
  congrArg Host.Outcome.next (s.skipOnKey_of_lt true hx)

theorem exec_sknp_of_lt {x : Reg} (hx : (s.getV x).toNat < 16) : exec (.sknp x) s = .next { s with
    pc := if s.input.keys.getLsbD (s.getV x).toNat then s.pc + 2 else s.pc + 4 } := by
  rw [exec, execSknp, s.skipOnKey_of_lt false hx, ← ite_not]
  simp only [State.keyDown, Bool.not_eq_false]

/-! ## The wait for a key (R263) -/

theorem State.lowestKey_eq_some {k : Nat} (hk : k < 16) (hdown : s.input.keys.getLsbD k = true)
    (hleast : ∀ j, j < k → s.input.keys.getLsbD j = false) : s.lowestKey = some k :=
  List.find?_range_eq_some.mpr ⟨hdown, List.mem_range.mpr hk, fun j hj => by simp [State.keyDown, hleast j hj]⟩

theorem exec_ldVxK_of_no_key (x : Reg) (h : s.input.keys = 0) : exec (.ldVxK x) s = .next s := by
  rw [exec, execLdVxK, s.lowestKey_eq_none_iff.mpr h]

theorem exec_ldVxK_of_lowestKey (x : Reg) {k : Nat} (h : s.lowestKey = some k) : exec (.ldVxK x) s = .next { s with
    v := if s.params.fx0aWritesKey then s.v.set x.val (BitVec.ofNat 8 k) else s.v
    pc := s.pc + 2 } := by
  rw [exec, execLdVxK, h]
  simp only [State.advance_eq]
  split <;> rfl

/-! ## The timer registers (R264 to R266) -/

theorem exec_ldVxDt (x : Reg) : exec (.ldVxDt x) s = .next { s with v := s.v.set x.val s.dt, pc := s.pc + 2 } :=
  exec_of_setV s rfl

theorem exec_ldDtVx (x : Reg) : exec (.ldDtVx x) s = .next { s with dt := s.getV x, pc := s.pc + 2 } :=
  congrArg Host.Outcome.next (State.advance_eq _ 2)

theorem exec_ldStVx (x : Reg) : exec (.ldStVx x) s = .next { s with st := s.getV x, pc := s.pc + 2 } :=
  congrArg Host.Outcome.next (State.advance_eq _ 2)

/-- The tone sounds while `ST` is not zero (60_exceptions.md R302). -/
theorem shouldEmitTone_iff : shouldEmitTone s = true ↔ s.st ≠ 0 := by
  rw [shouldEmitTone, decide_eq_true_iff]
  bv_omega

end Sys2Proof.Machine

namespace Sys2Proof.Proofs.TimersKeys

open Sys2Proof Sys2Proof.Machine

/-- Settles O50: a value of 16 or more names no key, and a smaller one a key whose level decides the skip. -/
theorem keySkipsTestTheSnapshot : Obligations.KeySkipsTestTheSnapshot := fun s x =>
  ⟨hasRow_rowOf (.skp x), hasRow_rowOf (.sknp x),
    fun hx => ⟨congrArg Host.Outcome.next (s.skipOnKey_of_ge true hx),
      congrArg Host.Outcome.next (s.skipOnKey_of_ge false hx)⟩,
    fun hx => ⟨exec_skp_of_lt s hx, exec_sknp_of_lt s hx⟩⟩

/-- Settles O51: the wait is held in `PC` alone, which the tick keeps, so the next cycle fetches FX0A again. -/
theorem waitForKeyPollsTheSnapshot : Obligations.WaitForKeyPollsTheSnapshot := by
  refine fun s x => ⟨hasRow_rowOf (.ldVxK x), exec_ldVxK_of_no_key s x, fun k hk hdown hleast =>
    exec_ldVxK_of_lowestKey s x (s.lowestKey_eq_some hk hdown hleast), fun hinstr hkeys => ⟨?_, ?_⟩⟩
  · rw [step_of_cycleInstr s hinstr]
    exact exec_ldVxK_of_no_key _ x (by rwa [beginCycle_input])
  · rwa [cycleInstr_beginCycle]

/-- Settles O52: in a step each runs in the state after the tick. -/
theorem timerRegistersMove : Obligations.TimerRegistersMove := by
  refine fun s x => ⟨hasRow_rowOf (.ldVxDt x), hasRow_rowOf (.ldDtVx x), hasRow_rowOf (.ldStVx x), exec_ldVxDt s x,
    exec_ldDtVx s x, ⟨_, exec_ldStVx s x, rfl, shouldEmitTone_iff _⟩, fun hinstr => ?_, fun hinstr => ?_⟩
  · refine ⟨_, (step_of_cycleInstr s hinstr).trans (exec_ldVxDt _ x), ?_⟩
    rw [← beginCycle_dt]
    exact State.getV_setV_self (beginCycle s) x _
  · exact ⟨_, (step_of_cycleInstr s hinstr).trans (exec_ldDtVx _ x), beginCycle_getV s x, beginCycle_ph s⟩

end Sys2Proof.Proofs.TimersKeys
end

