-- ==== Sys2Proof/Proofs/Exceptions.lean ====
section
/-! PROOFS. The statements about halts and the timer tick (60_exceptions.md): the condition of each halt (O10), the tick (O17)
and the timers over a whole period (O18), and the port codes (O56). -/

namespace Sys2Proof.Machine

open Sys2Proof.Claims

variable (s : State)

/-! ## Which instruction halts for which reason (R282) -/

theorem execHalt_ne_unknownOpcode (i : Instr) : execHalt s i ≠ some .unknownOpcode := by
  unfold execHalt
  split
  case h_5 => cases rangeBytes i <;> simp
  all_goals simp

theorem execHalt_eq_memoryOutOfBounds_iff (i : Instr) :
    execHalt s i = some .memoryOutOfBounds ↔ ∃ n, rangeBytes i = some n ∧ s.i.toNat + n > 4096 := by
  unfold execHalt
  split
  case h_5 => simp [Option.bind_eq_some_iff]
  all_goals simp [rangeBytes]

theorem execHalt_eq_stackOverflow_iff (i : Instr) :
    execHalt s i = some .stackOverflow ↔ (∃ nnn, i = .call nnn) ∧ s.sp.toNat = 175 := by
  unfold execHalt
  split
  case h_5 hcall _ _ =>
    exact iff_of_false (by simp [Option.bind_eq_some_iff]) fun ⟨⟨nnn, hi⟩, _⟩ => hcall nnn hi
  all_goals simp

theorem execHalt_eq_stackUnderflow_iff (i : Instr) :
    execHalt s i = some .stackUnderflow ↔ i = .ret ∧ s.sp.toNat = 0 := by
  unfold execHalt
  split
  case h_1 => simp [BitVec.toNat_eq]
  case h_5 hret _ _ _ => exact iff_of_false (by simp [Option.bind_eq_some_iff]) fun ⟨hi, _⟩ => hret hi
  all_goals simp

theorem execHalt_eq_keyOutOfRange_iff (i : Instr) :
    execHalt s i = some .keyOutOfRange ↔ ∃ x, (i = .skp x ∨ i = .sknp x) ∧ (s.getV x).toNat ≥ 16 := by
  unfold execHalt
  split
  case h_5 hskp hsknp =>
    exact iff_of_false (by simp [Option.bind_eq_some_iff]) fun ⟨x, hi, _⟩ => hi.elim (hskp x) (hsknp x)
  all_goals simp

/-! ## Which Advance halts for which reason (R282) -/

theorem step_halts_iff (r : HaltReason) :
    (∃ t, step s = .next t ∧ t.out = .halt r) ↔ cycleHalt s = some r :=
  ⟨fun ⟨_, h, hr⟩ => (cycleHalt_of_step s h hr).1, fun h => ⟨_, step_of_cycleHalt s h, rfl⟩⟩

theorem cycleHalt_eq_endOfProgram_iff :
    cycleHalt s = some .endOfProgram ↔ s.pc.toNat ≥ 0x200 + s.plen.toNat := by
  cases hend : atEndOfProgram s with
  | true =>
    refine iff_of_true ?_ (of_decide_eq_true hend)
    rw [cycleHalt, cycleInstr_of_atEnd s hend]
    exact if_pos hend
  | false => exact iff_of_false (cycleHalt_ne_endOfProgram s hend) (of_decide_eq_false hend)

/-- Every other reason but UNKNOWN_OPCODE is the halt of the cycle's instruction. -/
theorem cycleHalt_eq_some_iff_exec {r : HaltReason} (hend : r ≠ .endOfProgram) (hunknown : r ≠ .unknownOpcode) :
    cycleHalt s = some r ↔ ∃ i, cycleInstr s = some i ∧ execHalt s i = some r := by
  cases hinstr : cycleInstr s with
  | some i => simp [cycleHalt_of_cycleInstr s hinstr]
  | none =>
    rw [cycleHalt, hinstr]
    cases atEndOfProgram s <;> simp [hend.symm, hunknown.symm]

theorem cycleHalt_eq_unknownOpcode_iff : cycleHalt s = some .unknownOpcode ↔
    s.pc.toNat < 0x200 + s.plen.toNat ∧ ∃ op, fetchOpcode s = some op ∧ decodeOpcode op = none := by
  rw [← atEndOfProgram_eq_false_iff]
  cases hend : atEndOfProgram s with
  | true => simp [cycleHalt, cycleInstr_of_atEnd s hend, hend]
  | false =>
    cases hfetch : fetchOpcode s with
    | none => simp [cycleHalt, cycleInstr_of_not_atEnd s hend, hend, hfetch]
    | some op =>
      cases hdecode : decodeOpcode op with
      | none => simp [cycleHalt, cycleInstr_of_not_atEnd s hend, hend, hfetch, hdecode]
      | some i => simp [cycleHalt, cycleInstr_of_not_atEnd s hend, hfetch, hdecode, execHalt_ne_unknownOpcode]

/-- The reason `cycleHalt` gives is the one whose condition in the table of R282 holds. -/
theorem cycleHalt_eq_some_iff (r : HaltReason) : cycleHalt s = some r ↔ haltCondition s r := by
  cases r with
  | endOfProgram => exact cycleHalt_eq_endOfProgram_iff s
  | unknownOpcode => exact cycleHalt_eq_unknownOpcode_iff s
  | memoryOutOfBounds =>
    rw [cycleHalt_eq_some_iff_exec s (by decide) (by decide)]
    simp only [execHalt_eq_memoryOutOfBounds_iff, haltCondition, exists_and_left]
  | stackOverflow =>
    rw [cycleHalt_eq_some_iff_exec s (by decide) (by decide)]
    simp [execHalt_eq_stackOverflow_iff, haltCondition]
  | stackUnderflow =>
    rw [cycleHalt_eq_some_iff_exec s (by decide) (by decide)]
    simp [execHalt_eq_stackUnderflow_iff, haltCondition]
  | keyOutOfRange =>
    rw [cycleHalt_eq_some_iff_exec s (by decide) (by decide)]
    simp only [execHalt_eq_keyOutOfRange_iff]
    constructor
    · rintro ⟨_, hinstr, x, rfl | rfl, hx⟩
      · exact ⟨x, .inl hinstr, hx⟩
      · exact ⟨x, .inr hinstr, hx⟩
    · rintro ⟨x, hinstr | hinstr, hx⟩
      · exact ⟨_, hinstr, x, .inl rfl, hx⟩
      · exact ⟨_, hinstr, x, .inr rfl, hx⟩

/-! ## The tick on one timer (R290) -/

/-- A timer one lower, floored at 0. -/
def loweredTimer (b : Byte) : Byte := if b = 0 then 0 else b - 1

theorem toNat_loweredTimer (b : Byte) : (loweredTimer b).toNat = b.toNat - 1 := by
  unfold loweredTimer
  split <;> bv_omega

theorem loweredTimer_eq (b : Byte) :
    (if b.toNat > 0 then BitVec.ofNat 8 (b.toNat - 1) else b) = loweredTimer b := by
  unfold loweredTimer
  split <;> split <;> bv_omega

theorem timerTick_of_period (h : s.ph + 1 ≥ Config.timerPeriod s.ext) :
    timerTick s = { s with ph := 0, dt := loweredTimer s.dt, st := loweredTimer s.st } := by
  rw [timerTick, if_pos h, loweredTimer_eq, loweredTimer_eq]

theorem timerTick_of_lt_period (h : s.ph + 1 < Config.timerPeriod s.ext) :
    timerTick s = { s with ph := s.ph + 1 } :=
  if_neg (Nat.not_le.mpr h)

theorem timerTick_dt :
    (timerTick s).dt = if s.ph + 1 ≥ Config.timerPeriod s.ext then loweredTimer s.dt else s.dt := by
  split
  · next h => rw [timerTick_of_period s h]
  · next h => rw [timerTick_of_lt_period s (Nat.not_le.mp h)]

theorem timerTick_st :
    (timerTick s).st = if s.ph + 1 ≥ Config.timerPeriod s.ext then loweredTimer s.st else s.st := by
  split
  · next h => rw [timerTick_of_period s h]
  · next h => rw [timerTick_of_lt_period s (Nat.not_le.mp h)]

/-! ## One period of ticks (R291), on the sequences of values that `PH` and a timer take -/

section
variable {period : Nat} {ph : Nat → Nat} {timer : Nat → Byte}
  (hph : ∀ k, k < period → ph (k + 1) = if ph k + 1 ≥ period then 0 else ph k + 1)
  (htimer : ∀ k, k < period → timer (k + 1) = if ph k + 1 ≥ period then loweredTimer (timer k) else timer k)
include hph

/-- `PH` counts up from its first value until the one cycle in which it is cleared, and then from 0. -/
theorem phase_eq {k : Nat} (hk : k ≤ period) :
    ph k = if k ≤ period - 1 - ph 0 then ph 0 + k else k - 1 - (period - 1 - ph 0) := by
  induction k with
  | zero => simp
  | succ k ih =>
    rw [hph k hk, ih (Nat.le_of_succ_le hk)]
    split_ifs <;> omega

theorem phase_ends_iff {k : Nat} (hk : k < period) : ph k + 1 ≥ period ↔ k = period - 1 - ph 0 := by
  rw [phase_eq hph (Nat.le_of_lt hk)]
  split <;> omega

theorem phase_succ_eq_zero_iff {k : Nat} (hk : k < period) : ph (k + 1) = 0 ↔ k = period - 1 - ph 0 := by
  rw [← phase_ends_iff hph hk, hph k hk]
  split
  · next h => exact iff_of_true rfl h
  · next h => exact iff_of_false (Nat.succ_ne_zero _) h

include htimer

/-- A timer keeps its value through the cycle that clears `PH`, and is one lower after it. -/
theorem timer_eq {k : Nat} (hk : k ≤ period) :
    timer k = if k ≤ period - 1 - ph 0 then timer 0 else loweredTimer (timer 0) := by
  induction k with
  | zero => rfl
  | succ k ih =>
    rw [htimer k hk, ih (Nat.le_of_succ_le hk)]
    simp only [phase_ends_iff hph hk]
    rcases Nat.lt_trichotomy k (period - 1 - ph 0) with hlt | heq | hgt
    · rw [if_neg hlt.ne, if_pos hlt.le, if_pos (Nat.succ_le_of_lt hlt)]
    · rw [if_pos heq, if_pos heq.le, if_neg (by omega)]
    · rw [if_neg hgt.ne', if_neg (by omega), if_neg (by omega)]

/-- Over a period a timer falls by one, floored at 0; from `PH` = 0 in its last cycle. -/
theorem timer_falls_once (hpos : 0 < period) :
    (timer period).toNat = (timer 0).toNat - 1 ∧ (ph 0 = 0 → ∀ k, k < period → timer k = timer 0) := by
  refine ⟨?_, fun h0 k hk => ?_⟩
  · rw [timer_eq hph htimer le_rfl, if_neg (by omega), toNat_loweredTimer]
  · rw [timer_eq hph htimer hk.le, if_pos (by omega)]

end

theorem timerPeriod_pos (ext : Bool) : 0 < Config.timerPeriod ext := by cases ext <;> decide

/-! ## The ports (R281) -/

theorem reasonCode_isSome_iff (o : Status) : o.reasonCode.isSome = true ↔ o.code = 2 := by
  cases o <;> simp [Status.reasonCode, Status.code]

end Sys2Proof.Machine

namespace Sys2Proof.Proofs.Exceptions

open Sys2Proof Sys2Proof.Machine

/-- Settles O10: a step halts for the reason `cycleHalt` gives, which is the one of the table. -/
theorem haltReasonsHaveTheirConditions : Obligations.HaltReasonsHaveTheirConditions := by
  refine fun s r => ⟨(step_halts_iff s r).trans (cycleHalt_eq_some_iff s r), fun t h hr => ?_⟩
  obtain ⟨-, rfl⟩ := cycleHalt_of_step s h hr
  exact beginCycle_pc s

/-- Settles O17: the two branches of the tick. -/
theorem timerTickCountsDown : Obligations.TimerTickCountsDown := fun s =>
  ⟨timerTick_of_lt_period s, timerTick_of_period s⟩

/-- Settles O18: `PH` and a timer that nothing writes take the tick's values in every cycle of the run (O19), and the tick
clears `PH` once in a period. -/
theorem timersFallOncePerPeriod : Obligations.TimersFallOncePerPeriod := by
  intro f e hrun
  have htick := fun k hk => Cycle.tickPrecedesInstruction (f k) (f (k + 1)) (hrun k hk).1
  have hph : ∀ k, k < Config.timerPeriod e →
      (f (k + 1)).ph = if (f k).ph + 1 ≥ Config.timerPeriod e then 0 else (f k).ph + 1 := fun k hk => by
    rw [(htick k hk).1, timerTick_ph, (hrun k hk).2]
  have hpos := timerPeriod_pos e
  refine ⟨⟨Config.timerPeriod e - 1 - (f 0).ph, ?_, ?_⟩, fun hdt => ?_, fun hst => ?_⟩
  · have hlt : Config.timerPeriod e - 1 - (f 0).ph < Config.timerPeriod e := by omega
    exact ⟨hlt, (phase_succ_eq_zero_iff (ph := fun k => (f k).ph) hph hlt).mpr rfl⟩
  · exact fun j ⟨hj, hzero⟩ => (phase_succ_eq_zero_iff (ph := fun k => (f k).ph) hph hj).mp hzero
  · refine timer_falls_once (ph := fun k => (f k).ph) (timer := fun k => (f k).dt) hph (fun k hk => ?_) hpos
    rw [(htick k hk).2.1 fun x => hdt k x hk, timerTick_dt, (hrun k hk).2]
  · refine timer_falls_once (ph := fun k => (f k).ph) (timer := fun k => (f k).st) hph (fun k hk => ?_) hpos
    rw [(htick k hk).2.2 fun x => hst k x hk, timerTick_st, (hrun k hk).2]

/-- Settles O56: the codes by their tables. -/
theorem portCodes : Obligations.PortCodes :=
  ⟨rfl, rfl, fun _ => rfl, rfl, rfl, rfl, rfl, rfl, rfl, rfl, rfl, reasonCode_isSome_iff⟩

end Sys2Proof.Proofs.Exceptions
end

