-- ==== Sys2Proof/Proofs/Reset.lean ====
section
/-! PROOFS. The statements about reset and loading (70_reset_and_hazards.md): the state after Construct (O53), and the load
that fits or is refused (O54). -/

namespace Sys2Proof.Machine

variable (s : State)

/-! ## The memory after Construct (R320) -/

theorem readByte_constructed_eq_resetByte (p : Params) (a : Nat) : (State.constructed p).readByte a = resetByte p a := rfl

/-! ## The state after a load that fits (R322) -/

/-- What LoadProgram makes of a state when the program fits: the constructed state with the program in it. -/
def State.loaded (s : State) (bytes : List Byte) : State :=
  { (State.constructed s.params).writeBytes 0x200 bytes with
    pc := 0x200
    plen := BitVec.ofNat 16 bytes.length
    pending := s.pending
    draws := s.draws }

theorem loadProgram_of_fits {bytes : List Byte} (h : 0x200 + bytes.length < 0xEA0) :
    loadProgram bytes s = (.ok, s.loaded bytes) := if_neg (Nat.not_le.mpr h)

theorem toNat_plen_loaded {bytes : List Byte} (h : 0x200 + bytes.length < 0xEA0) :
    (s.loaded bytes).plen.toNat = bytes.length := by
  rw [State.loaded, BitVec.toNat_ofNat, Nat.mod_eq_of_lt (by omega)]

theorem readByte_loaded_in {bytes : List Byte} (h : 0x200 + bytes.length < 0xEA0) {a : Nat}
    (hlow : 0x200 ≤ a) (hhigh : a < 0x200 + bytes.length) :
    (s.loaded bytes).readByte a = bytes.getD (a - 0x200) 0 := by
  obtain ⟨k, rfl⟩ := Nat.exists_eq_add_of_le hlow
  have hk : k < bytes.length := Nat.lt_of_add_lt_add_left hhigh
  rw [Nat.add_sub_cancel_left, List.getD_eq_getElem _ _ hk]
  exact (State.constructed s.params).readByte_writeBytes_in Memory.wf_nil (by simp only [Config.memSize]; omega) hk

theorem readByte_loaded_out {bytes : List Byte} {a : Nat} (h : ¬(0x200 ≤ a ∧ a < 0x200 + bytes.length)) :
    (s.loaded bytes).readByte a = resetByte s.params a :=
  (State.constructed s.params).readByte_writeBytes_out bytes (by omega)

/-- The program stands above GLYPH_IMAGE, so a load leaves the glyphs as Construct does. -/
theorem readByte_loaded {bytes : List Byte} (h : 0x200 + bytes.length < 0xEA0) (a : Nat) :
    (s.loaded bytes).readByte a =
      if a < 0x0F0 then s.params.glyphImage.get a
      else if 0x200 ≤ a ∧ a < 0x200 + bytes.length then bytes.getD (a - 0x200) 0 else 0 := by
  by_cases hin : 0x200 ≤ a ∧ a < 0x200 + bytes.length
  · rw [readByte_loaded_in s h hin.1 hin.2, if_neg (by omega), if_pos hin]
  · rw [readByte_loaded_out s hin, if_neg hin]
    rfl

end Sys2Proof.Machine

namespace Sys2Proof.Proofs.Reset

open Sys2Proof Sys2Proof.Machine

/-- Settles O53: memory lists no cell, so every address reads as its reset byte; the arrays are of zeros. -/
theorem constructZeroesAllButGlyphs : Obligations.ConstructZeroesAllButGlyphs :=
  ⟨⟨_, rfl⟩, fun p => ⟨fun a _ => readByte_constructed_eq_resetByte p a, fun _ => Bytes.get_zeros _, rfl, rfl, rfl,
    fun _ _ => Bytes.get_zeros _, rfl, rfl, rfl, rfl, rfl, rfl, rfl⟩⟩

/-- Settles O54: the load that fits gives `State.loaded`; with an empty program its `PC` is already the end (O7). -/
theorem loadProgramResetsAndCopies : Obligations.LoadProgramResetsAndCopies := by
  refine fun s bytes => ⟨loadProgram_tooLarge s, fun h => ⟨s.loaded bytes, loadProgram_of_fits s h, ?_⟩⟩
  refine ⟨fun a _ => readByte_loaded s h a, fun _ => Bytes.get_zeros _, rfl, rfl, rfl, fun _ _ => Bytes.get_zeros _,
    rfl, rfl, rfl, rfl, rfl, toNat_plen_loaded s h, rfl, fun hempty => ?_⟩
  subst hempty
  obtain ⟨hhalts, -⟩ := Cycle.endOfProgramHaltsBeforeFetch (s.loaded [])
  exact ⟨_, hhalts (toNat_plen_loaded s h ▸ le_rfl), rfl⟩

end Sys2Proof.Proofs.Reset
end

