-- ==== Sys2Proof/Proofs/Frames.lean ====
section
/-! PROOFS. The statements about what an instruction leaves unchanged: each element of the state but under its writers (O13),
the V registers but the destinations (O14), and the bytes around a store (O15). -/

namespace Sys2Proof.Machine

open Sys2Proof.Claims

variable (s : State)

/-! ## Everything 2NNN and 00EE can do (41_control.md R131, R134; log entry 9) -/

theorem exec_call_of_gt (nnn : BitVec 12) (hsp : s.sp.toNat > 175) :
    exec (.call nnn) s = .fault .stackEntryOutsideMemory := by
  have hnotFull : s.sp.toNat ≠ Config.stackCapacity := Nat.ne_of_gt hsp
  have hentry : ¬ stackEntryInMemory (s.sp.toNat + 1) := Nat.not_le.mpr (Nat.lt_succ_of_lt hsp)
  simp only [exec, execCall, if_neg hnotFull, if_neg hentry]

theorem exec_ret_of_gt (hsp : s.sp.toNat > 175) : exec .ret s = .fault .stackEntryOutsideMemory := by
  have hnotEmpty : s.sp ≠ 0 := fun h => by simp [h] at hsp
  have hentry : ¬ stackEntryInMemory s.sp.toNat := Nat.not_le.mpr hsp
  simp only [exec, execRet, if_neg hnotEmpty, if_neg hentry]

section
variable {s} {t : State}

theorem exec_call_cases {nnn : BitVec 12} (h : exec (.call nnn) s = .next t) :
    (s.sp.toNat = 175 ∧ t = s.raiseHalt .stackOverflow) ∨
      (s.sp.toNat < 175 ∧ t = { s.stackWrite (s.sp.toNat + 1) s.pc with sp := s.sp + 1, pc := nnn.setWidth 16 }) := by
  rcases Nat.lt_trichotomy s.sp.toNat 175 with hlt | heq | hgt
  · exact .inr ⟨hlt, Host.Outcome.next.inj (h.symm.trans (exec_call_of_lt s nnn hlt))⟩
  · exact .inl ⟨heq, Host.Outcome.next.inj (h.symm.trans (exec_call_of_full s nnn heq))⟩
  · cases h.symm.trans (exec_call_of_gt s nnn hgt)

theorem exec_ret_cases (h : exec .ret s = .next t) :
    (s.sp = 0 ∧ t = s.raiseHalt .stackUnderflow) ∨
      (s.sp ≠ 0 ∧ s.sp.toNat ≤ 175 ∧ t = { s with sp := s.sp - 1, pc := s.stackRead s.sp.toNat + 2 }) := by
  by_cases hempty : s.sp = 0
  · exact .inl ⟨hempty, Host.Outcome.next.inj (h.symm.trans (exec_ret_of_empty s hempty))⟩
  · rcases le_or_gt s.sp.toNat 175 with hle | hgt
    · exact .inr ⟨hempty, hle, Host.Outcome.next.inj (h.symm.trans (exec_ret_of_le s hempty hle))⟩
    · cases h.symm.trans (exec_ret_of_gt s hgt)

/-- FX0A waits, or goes past itself with at most VX written (45_timers_keys.md R263). -/
theorem exec_ldVxK_cases {x : Reg} (h : exec (.ldVxK x) s = .next t) :
    t = s ∨ ∃ k : Nat, t = { s with
      v := if s.params.fx0aWritesKey then s.v.set x.val (BitVec.ofNat 8 k) else s.v
      pc := s.pc + 2 } := by
  cases hkey : s.lowestKey with
  | none =>
    have hnone := exec_ldVxK_of_no_key s x (s.lowestKey_eq_none_iff.mp hkey)
    exact .inl (Host.Outcome.next.inj (h.symm.trans hnone))
  | some k => exact .inr ⟨k, Host.Outcome.next.inj (h.symm.trans (exec_ldVxK_of_lowestKey s x hkey))⟩

end

/-! ## The frame of every instruction (10_state.md R20 to R33) -/

/-- What an instruction keeps of the elements that `exec_plane`, `exec_inc` and `Completes` say nothing of: each but under the
instructions that write it. -/
structure Frame (i : Instr) (s t : State) : Prop where
  mem : (∀ nnn, i ≠ .call nnn) → (∀ x, i ≠ .ldB x ∧ i ≠ .storeRegs x) → t.mem = s.mem := by exact fun _ _ => rfl
  v : ∀ k, ¬ writesReg s k i → t.getV k = s.getV k := by exact fun _ _ => rfl
  index : (∀ nnn, i ≠ .ldI nnn) → (∀ x, i ≠ .addI x ∧ i ≠ .ldF x ∧ i ≠ .ldHF x) →
    (s.inc = true → ∀ x, i ≠ .storeRegs x ∧ i ≠ .loadRegs x) → t.i = s.i := by exact fun _ _ _ => rfl
  sp : i ≠ .ret → (∀ nnn, i ≠ .call nnn) → t.sp = s.sp := by exact fun _ _ => rfl
  ext : i ≠ .low → i ≠ .high → t.ext = s.ext := by exact fun _ _ => rfl
  plen : t.plen = s.plen := by rfl
  params : t.params = s.params := by rfl
  pending : t.pending = s.pending := by rfl
  draws : t.draws = s.draws := by rfl

section
variable {s} {i : Instr} {t : State}

/-- A halt keeps every element (60_exceptions.md R280). -/
theorem Frame.raiseHalt (r : HaltReason) : Frame i s (s.raiseHalt r) := {}

theorem frame_guardRange {n : Nat} (ht : Frame i s t) : Frame i s (guardRange s n t) :=
  guardRange_induction s (P := Frame i s) (.raiseHalt _) ht

theorem frame_skipOnKey (b : Byte) (down : Bool) : Frame i s (s.skipOnKey b down) := by
  rcases s.skipOnKey_cases b down with ⟨-, e⟩ | ⟨-, e⟩ <;> rw [e]
  · exact .raiseHalt _
  · exact {}

/-- An instruction that writes `V[x]` alone. -/
theorem frame_setV {x : Reg} {b : Byte} (hx : writesReg s x i) : Frame i s ((s.setV x b).advance 2) where
  v k hk := State.getV_setV_ne s b fun e => hk (e ▸ hx)

theorem frame_writeResultAndFlag {x : Reg} {rf : Byte × Bool} (hx : writesReg s x i) (hf : writesReg s 15 i) :
    Frame i s ((s.writeResultAndFlag x rf).advance 2) := by
  have hv (k : Reg) (hk : ¬ writesReg s k i) : (s.writeResultAndFlag x rf).getV k = s.getV k :=
    s.writeResultAndFlag_getV x k rf (fun e => hk (e ▸ hx)) fun e => hk (e ▸ hf)
  rw [s.writeResultAndFlag_eq] at hv ⊢
  exact { v := hv }

/-- A draw behind its range check writes VF as its collision (42_display.md R171). -/
theorem frame_drawAt {x y : Reg} {rows cols : Nat} {spr : Nat → Nat → Bool} (hf : writesReg s 15 i) :
    Frame i s (s.drawAt x y rows cols spr) where
  v k hk := State.getV_setV_ne _ _ fun e => hk (e ▸ hf)

/-- FX55 and FX65 leave `I` when INC = 0. -/
theorem indexAfter_of_not_written {x : Reg} (hi : i = .storeRegs x ∨ i = .loadRegs x)
    (h : s.inc = true → ∀ x, i ≠ .storeRegs x ∧ i ≠ .loadRegs x) : s.indexAfter x = s.i := by
  refine s.indexAfter_of_inc_false x (Bool.eq_false_iff.mpr fun hinc => ?_)
  exact hi.elim (h hinc x).1 (h hinc x).2

theorem frame_storeRegs (x : Reg) : Frame (.storeRegs x) s
    (({ s.writeBytes s.i.toNat (s.regRange x) with i := s.indexAfter x } : State).advance 2) where
  mem _ h := absurd rfl (h x).2
  index _ _ h := indexAfter_of_not_written (.inl rfl) h

theorem frame_loadRegs (x : Reg) : Frame (.loadRegs x) s
    (({ s with v := s.loadedRegs x, i := s.indexAfter x } : State).advance 2) where
  v k hk := (s.get_loadedRegs x k).trans (if_neg hk)
  index _ _ h := indexAfter_of_not_written (.inr rfl) h

theorem frame_ldVxK {x : Reg} (h : exec (.ldVxK x) s = .next t) : Frame (.ldVxK x) s t := by
  rcases exec_ldVxK_cases h with rfl | ⟨k, rfl⟩
  · exact {}
  · refine { v := fun j hj => ?_ }
    cases hwrites : s.params.fx0aWritesKey with
    | false => rfl
    | true => exact State.getV_setV_ne s _ fun e => hj ⟨hwrites, e⟩

theorem frame_call {nnn : BitVec 12} (h : exec (.call nnn) s = .next t) : Frame (.call nnn) s t := by
  rcases exec_call_cases h with ⟨-, rfl⟩ | ⟨-, rfl⟩
  · exact .raiseHalt _
  · exact { mem := fun hi _ => absurd rfl (hi nnn), sp := fun _ hi => absurd rfl (hi nnn) }

theorem frame_ret (h : exec .ret s = .next t) : Frame .ret s t := by
  rcases exec_ret_cases h with ⟨-, rfl⟩ | ⟨-, -, rfl⟩
  · exact .raiseHalt _
  · exact { sp := fun hi => absurd rfl hi }

/-- Every instruction by the shape of its effect. -/
theorem exec_frame (h : exec i s = .next t) : Frame i s t := by
  cases i with
  | ret => exact frame_ret h
  | call nnn => exact frame_call h
  | ldVxK x => exact frame_ldVxK h
  | skp _ | sknp _ => obtain rfl := Host.Outcome.next.inj h; exact frame_skipOnKey _ _
  | ldImm _ _ | addImm _ _ | ldReg _ _ | orReg _ _ | andReg _ _ | xorReg _ _ | rnd _ _ | ldVxDt _ =>
    obtain rfl := Host.Outcome.next.inj h; exact frame_setV rfl
  | addReg _ _ | subReg _ _ | shr _ _ | subnReg _ _ | shl _ _ =>
    obtain rfl := Host.Outcome.next.inj h; exact frame_writeResultAndFlag (.inl rfl) (.inr rfl)
  | drw _ _ _ | drwExt _ _ => obtain rfl := Host.Outcome.next.inj h; exact frame_guardRange (frame_drawAt rfl)
  | ldB x =>
    obtain rfl := Host.Outcome.next.inj h; exact frame_guardRange { mem := fun _ hi => absurd rfl (hi x).1 }
  | storeRegs x => obtain rfl := Host.Outcome.next.inj h; exact frame_guardRange (frame_storeRegs x)
  | loadRegs x => obtain rfl := Host.Outcome.next.inj h; exact frame_guardRange (frame_loadRegs x)
  | ldI nnn => obtain rfl := Host.Outcome.next.inj h; exact { index := fun hi => absurd rfl (hi nnn) }
  | addI x => obtain rfl := Host.Outcome.next.inj h; exact { index := fun _ hi => absurd rfl (hi x).1 }
  | ldF x => obtain rfl := Host.Outcome.next.inj h; exact { index := fun _ hi => absurd rfl (hi x).2.1 }
  | ldHF x => obtain rfl := Host.Outcome.next.inj h; exact { index := fun _ hi => absurd rfl (hi x).2.2 }
  | low => obtain rfl := Host.Outcome.next.inj h; exact { ext := fun hi => absurd rfl hi }
  | high => obtain rfl := Host.Outcome.next.inj h; exact { ext := fun _ hi => absurd rfl hi }
  | cls | scd _ | togi | scr | scl | exitReq | sys _ | jp _ | seImm _ _ | sneImm _ _ | seReg _ _ | sneReg _ _ | jpV0 _
  | ldDtVx _ | ldStVx _ => obtain rfl := Host.Outcome.next.inj h; exact {}

/-! ## The timers under an instruction (10_state.md R28 to R30) -/

theorem exec_ph (h : exec i s = .next t) : t.ph = s.ph := by
  cases ExecOutcome.of_exec h with
  | halts => rfl
  | completes _ done => exact done.ph

theorem exec_dt (hi : ∀ x, i ≠ .ldDtVx x) (h : exec i s = .next t) : t.dt = s.dt := by
  cases ExecOutcome.of_exec h with
  | halts => rfl
  | completes _ done => exact done.dt hi

theorem exec_st (hi : ∀ x, i ≠ .ldStVx x) (h : exec i s = .next t) : t.st = s.st := by
  cases ExecOutcome.of_exec h with
  | halts => rfl
  | completes _ done => exact done.st hi

end

/-! ## The bytes around a store (20_memory.md R57) -/

/-- A store behind its range check leaves every byte outside it. -/
theorem readByte_guardRange_writeBytes_out {n a c : Nat} {bs : List Byte} {t : State} (hc : c < a ∨ a + bs.length ≤ c)
    (ht : t.readByte c = (s.writeBytes a bs).readByte c) : (guardRange s n t).readByte c = s.readByte c :=
  guardRange_induction s (P := (·.readByte c = s.readByte c)) rfl (ht.trans (s.readByte_writeBytes_out bs hc))

theorem readByte_exec_call_out {nnn : BitVec 12} {t : State} {a : Nat} (h : exec (.call nnn) s = .next t)
    (ha : a < stackAddr (s.sp.toNat + 1) ∨ stackAddr (s.sp.toNat + 1) + 2 ≤ a) : t.readByte a = s.readByte a := by
  rcases exec_call_cases h with ⟨-, rfl⟩ | ⟨-, rfl⟩
  · rfl
  · exact s.readByte_stackWrite_out s.pc (by omega) (by omega)

end Sys2Proof.Machine

namespace Sys2Proof.Proofs.Frames

open Sys2Proof Sys2Proof.Machine

/-- Settles O13: the frame, with the plane, INC, the timers and the inputs from the lemmas of their own. -/
theorem onlyNamedWritersChangeState : Obligations.OnlyNamedWritersChangeState := by
  intro i s t h
  have frame := exec_frame h
  refine ⟨fun hcall hstore => ?_, frame.index, frame.sp, fun hcls hscd hscr hscl hdrw hdrwExt => ?_,
    fun hi => exec_dt hi h, fun hi => exec_st hi h, fun hi => exec_inc hi h, frame.ext, exec_ph h, frame.plen,
    frame.params, exec_input h, frame.pending, frame.draws⟩
  · have hmem := frame.mem hcall hstore
    exact ⟨hmem, State.readByte_congr hmem frame.params⟩
  · refine exec_plane (fun hpaints => ?_) h
    cases hpaints with
    | cls => exact hcls rfl
    | scd n => exact hscd n rfl
    | scr => exact hscr rfl
    | scl => exact hscl rfl
    | drw x y n => exact hdrw x y n rfl
    | drwExt x y => exact hdrwExt x y rfl

/-- Settles O14: the frame's part about the V registers. -/
theorem onlyDestinationRegistersChange : Obligations.OnlyDestinationRegistersChange :=
  fun _ _ _ k h => (exec_frame h).v k

/-- Settles O15: FX33 and FX55 store a list of bytes at `I`, 2NNN the two bytes of one entry. -/
theorem storesTouchOnlyTheirBytes : Obligations.StoresTouchOnlyTheirBytes := by
  refine fun s t a => ⟨fun x h ha => ?_, fun x h ha => ?_, fun nnn h => readByte_exec_call_out s h⟩
  · obtain rfl := Host.Outcome.next.inj h
    exact readByte_guardRange_writeBytes_out s (bs := decimalDigits (s.getV x)) ha rfl
  · obtain rfl := Host.Outcome.next.inj h
    exact readByte_guardRange_writeBytes_out s (bs := s.regRange x) (by rwa [State.regRange_length]) rfl

end Sys2Proof.Proofs.Frames
end

