-- ==== Sys2Proof/Proofs/Steps.lean ====
section
/-! PROOFS. The statements about one step: it keeps the states legal (O58), where it stops (O59), that it runs the decoded
instruction (O6), and what a few words decode to (O5). -/

namespace Sys2Proof.Machine

open Sys2Proof.Claims

/-! ## An instruction and an Advance keep the states legal (10_state.md R27, R30, R33; 20_memory.md R57) -/

section
variable {s : State} {i : Instr} {t : State}

theorem inv_raiseHalt (hs : s.Inv) (r : HaltReason) : (s.raiseHalt r).Inv := hs

theorem inv_beginCycle (hs : s.Inv) : (beginCycle s).Inv := by
  obtain ⟨hmem, hsp, -, hplen⟩ := hs
  exact ⟨by simpa using hmem, by simpa using hsp, timerTick_ph_lt _, by simpa using hplen⟩

/-- A store behind its range check lies inside memory, so memory stays canonical. -/
theorem wf_guardRange_writeBytes {bs : List Byte} {effect : State} (hm : Memory.wf (resetByte s.params) s.mem)
    (hmem : effect.mem = (s.writeBytes s.i.toNat bs).mem) :
    Memory.wf (resetByte s.params) (guardRange s bs.length effect).mem := by
  rcases guardRange_cases s bs.length effect with ⟨-, e⟩ | ⟨hfit, e⟩ <;> rw [e]
  · exact hm
  · rw [hmem]
    exact s.wf_writeBytes hm hfit

theorem wf_exec_call {nnn : BitVec 12} (hm : Memory.wf (resetByte s.params) s.mem)
    (h : exec (.call nnn) s = .next t) : Memory.wf (resetByte s.params) t.mem := by
  rcases exec_call_cases h with ⟨-, rfl⟩ | ⟨hsp, rfl⟩
  · exact hm
  · exact s.wf_writeBytes hm (by rw [entryBytes_length]; exact stackAddr_add_two_le hsp)

/-- Every instruction keeps memory canonical. -/
theorem wf_exec (hm : Memory.wf (resetByte s.params) s.mem) (h : exec i s = .next t) :
    Memory.wf (resetByte t.params) t.mem := by
  have frame := exec_frame h
  rw [frame.params]
  cases i with
  | call nnn => exact wf_exec_call hm h
  | ldB x =>
    obtain rfl := Host.Outcome.next.inj h
    exact wf_guardRange_writeBytes (bs := decimalDigits (s.getV x)) hm rfl
  | storeRegs x =>
    obtain rfl := Host.Outcome.next.inj h
    rw [← s.regRange_length x]
    exact wf_guardRange_writeBytes hm rfl
  | _ => rw [frame.mem (by simp) (by simp)]; exact hm

/-- Every instruction keeps `SP` within the stack. -/
theorem sp_exec_le (hsp : s.sp.toNat ≤ 175) (h : exec i s = .next t) : t.sp.toNat ≤ 175 := by
  have frame := exec_frame h
  cases i with
  | call nnn =>
    rcases exec_call_cases h with ⟨-, rfl⟩ | ⟨hlt, rfl⟩
    · exact hsp
    · exact (toNat_add_one_of_lt_stackCapacity hlt).trans_le hlt
  | ret =>
    rcases exec_ret_cases h with ⟨-, rfl⟩ | ⟨hne, -, rfl⟩
    · exact hsp
    · bv_omega
  | _ => rw [frame.sp (by simp) (by simp)]; exact hsp

theorem inv_exec (hs : s.Inv) (h : exec i s = .next t) : t.Inv := by
  obtain ⟨hmem, hsp, hph, hplen⟩ := hs
  exact ⟨wf_exec hmem h, sp_exec_le hsp h, by rwa [exec_ph h], by rwa [(exec_frame h).plen]⟩

end

/-! ## Where an instruction and an Advance stop (log entries 8 and 9) -/

section
variable (s : State)

theorem exec_ne_refused (i : Instr) (r : Refusal) : exec i s ≠ .refused r := by
  intro h
  have hexec := execOutcome s i
  rw [h] at hexec
  cases hexec

theorem exec_eq_fault_iff (i : Instr) (f : Fault) : exec i s = .fault f ↔
    f = .stackEntryOutsideMemory ∧ s.sp.toNat > 175 ∧ (i = .ret ∨ ∃ nnn, i = .call nnn) := by
  constructor
  · intro h
    have hexec := execOutcome s i
    rw [h] at hexec
    cases hexec with
    | stops _ hsp hstack => exact ⟨rfl, hsp, hstack⟩
  · rintro ⟨rfl, hsp, rfl | ⟨nnn, rfl⟩⟩
    · exact exec_ret_of_gt s hsp
    · exact exec_call_of_gt s nnn hsp

/-- Within the stack every instruction answers a next state. -/
theorem exec_answers_of_sp_le (i : Instr) (hsp : s.sp.toNat ≤ 175) : ∃ t, exec i s = .next t := by
  cases h : exec i s with
  | next t => exact ⟨t, rfl⟩
  | fault f =>
    obtain ⟨-, hgt, -⟩ := (exec_eq_fault_iff s i f).mp h
    exact absurd hsp (Nat.not_le.mpr hgt)
  | refused r => exact absurd h (exec_ne_refused s i r)

theorem fetchOpcode_eq_none_iff : fetchOpcode s = none ↔ 4096 ≤ s.pc.toNat + 1 := by
  simp [fetchOpcode]

theorem cycleInstr_eq_some_of_decode {i : Instr} {op : Opcode} (hend : atEndOfProgram s = false)
    (hfetch : fetchOpcode s = some op) (hdecode : decodeOpcode op = some i) : cycleInstr s = some i := by
  rw [cycleInstr_of_not_atEnd s hend, hfetch]
  exact hdecode

theorem step_ne_refused (r : Refusal) : step s ≠ .refused r := by
  rcases step_cases s with ⟨-, e⟩ | ⟨-, ⟨-, e⟩ | ⟨_, -, ⟨-, e⟩ | ⟨i, -, e⟩⟩⟩ <;> rw [e]
  case inr.inr.inr => exact exec_ne_refused _ i r
  all_goals nofun

/-- A step faults in its fetch, or in the instruction it runs. -/
theorem step_eq_fault_iff (f : Fault) : step s = .fault f ↔
    (f = .fetchOutsideMemory ∧ atEndOfProgram s = false ∧ fetchOpcode s = none) ∨
      ∃ i, cycleInstr s = some i ∧ exec i (beginCycle s) = .fault f := by
  constructor
  · intro h
    rcases step_cases s with ⟨-, e⟩ | ⟨hend, ⟨hfetch, e⟩ | ⟨op, hfetch, ⟨-, e⟩ | ⟨i, hdecode, e⟩⟩⟩ <;> rw [e] at h
    · cases h
    · exact .inl ⟨(Host.Outcome.fault.inj h).symm, hend, hfetch⟩
    · cases h
    · exact .inr ⟨i, cycleInstr_eq_some_of_decode s hend hfetch hdecode, h⟩
  · rintro (⟨rfl, hend, hfetch⟩ | ⟨i, hinstr, h⟩)
    · simp [step, runCycle, hend, hfetch]
    · rw [step_of_cycleInstr s hinstr, h]

/-- A legal state fetches inside memory and has its stack inside memory, so its step does not fault. -/
theorem step_answers_of_inv (hs : s.Inv) : ∃ t, step s = .next t ∧ t.Inv := by
  have hbegin := inv_beginCycle hs
  have ⟨_, hsp, _⟩ := hbegin
  rcases step_cases s with ⟨-, e⟩ | ⟨hend, ⟨hfetch, -⟩ | ⟨_, -, ⟨-, e⟩ | ⟨i, -, e⟩⟩⟩
  · exact ⟨_, e, inv_raiseHalt hbegin _⟩
  · rw [fetchOpcode_of_inv s hs hend] at hfetch
    cases hfetch
  · exact ⟨_, e, inv_raiseHalt hbegin _⟩
  · obtain ⟨t, h⟩ := exec_answers_of_sp_le (beginCycle s) i hsp
    exact ⟨t, e.trans h, inv_exec hbegin h⟩

/-! ## The bytes of an instruction at `PC` (20_memory.md R59; 30_encoding.md R80) -/

theorem fetchOpcode_of_encodeBytes {i : Instr} (hpc : s.pc.toNat + 1 < 4096)
    (hbytes : [s.readByte s.pc.toNat, s.readByte (s.pc.toNat + 1)] = encodeBytes i) :
    fetchOpcode s = some (encode i) := by
  simp only [encodeBytes, List.cons.injEq, and_true] at hbytes
  obtain ⟨hhi, hlo⟩ := hbytes
  rw [fetchOpcode, if_pos hpc, hhi, hlo, opcodeOfBytes_extract]

end

end Sys2Proof.Machine

namespace Sys2Proof.Proofs.Steps

open Sys2Proof Sys2Proof.Machine

/-- Settles O58: the start of a cycle, a halt and every instruction keep the invariant, under which nothing stops. -/
theorem stepKeepsStatesLegal : Obligations.StepKeepsStatesLegal := step_answers_of_inv

/-- Settles O59: the fault of the fetch is the step's own, that of the stack entry its instruction's. -/
theorem stopsOnlyOutsideMemory : Obligations.StopsOnlyOutsideMemory := by
  refine fun s => ⟨?_, ?_, step_ne_refused s⟩
  · simp [step_eq_fault_iff, exec_eq_fault_iff, atEndOfProgram_eq_false_iff, fetchOpcode_eq_none_iff]
  · rw [step_eq_fault_iff]
    simp only [exec_eq_fault_iff, beginCycle_sp, reduceCtorEq, false_and, false_or, true_and]
    constructor
    · rintro ⟨_, hinstr, hsp, rfl | ⟨nnn, rfl⟩⟩
      · exact ⟨hsp, .inl hinstr⟩
      · exact ⟨hsp, .inr ⟨nnn, hinstr⟩⟩
    · rintro ⟨hsp, hinstr | ⟨nnn, hinstr⟩⟩
      · exact ⟨_, hinstr, hsp, .inl rfl⟩
      · exact ⟨_, hinstr, hsp, .inr ⟨nnn, rfl⟩⟩

/-- Settles O6: the fetched opcode is the instruction's word, which decodes to it (O1). -/
theorem stepRunsDecodedInstruction : Obligations.StepRunsDecodedInstruction := by
  intro s i hi hprogram hmemory hbytes
  have hend : atEndOfProgram s = false := (atEndOfProgram_eq_false_iff s).mpr hprogram
  have hfetch := fetchOpcode_of_encodeBytes s hmemory hbytes
  exact step_of_cycleInstr s (cycleInstr_eq_some_of_decode s hend hfetch (decodeOpcode_encode hi))

/-- Settles O5: each word is that of its instruction, which decodes to it (O1); 0xF075 is in the list of R92. -/
theorem sampleWordsDecode : Obligations.SampleWordsDecode :=
  ⟨decodeOpcode_encode (i := .ret) rfl, decodeOpcode_encode (i := .scd 5) rfl, decodeOpcode_encode (i := .sys 0x0F9) rfl,
    decodeOpcode_encode (i := .sneImm 2 0x05) rfl, decodeOpcode_encode (i := .addReg 0 1) rfl,
    decodeOpcode_encode (i := .drw 1 2 3) rfl, decodeOpcode_encode (i := .drwExt 1 2) rfl,
    decodeOpcode_encode (i := .sknp 5) rfl, decodeOpcode_encode (i := .addI 2) rfl,
    (decodeOpcode_eq_none_iff 0xF075).mpr (by decide)⟩

end Sys2Proof.Proofs.Steps
end
